-- ==== Sys2Proof/Word.lean ====
section
/-! DEFINITION. The units of storage: the 16-bit Word, the 12-bit address, the 8-bit symbol, the image's byte, and the
tape's Cell (R7, R11 of 00_scope.md). -/

namespace Sys2Proof

/-- R13 (00_scope.md): "16-bit storage/transfer unit for instructions and addresses." -/
abbrev Word := BitVec 16

/-- A word address of the instruction memory (R7, R51). -/
abbrev Addr := BitVec 12

/-- A symbol ("letter") value 0 to 255, unsigned (R7, R93). -/
abbrev Symbol := BitVec 8

/-- One byte of a program image or of an input line (R55, R239); the core itself never sees a byte. -/
abbrev Byte := BitVec 8

/-- R38 (10_state.md): a Cell is `Blank` or `Symbol(s)`, "never both, never neither" (R11). -/
inductive Cell where
  | blank
  | symbol (s : Symbol)
deriving DecidableEq, Repr

end Sys2Proof
end

