-- ==== Sys2Proof/Config.lean ====
section
/-! DEFINITION. The parameters the source leaves open, "each a configuration argument of a model" (R8 of 00_scope.md): their types.
The spec's defaults stand in Machine/Defaults.lean. -/

namespace Sys2Proof

/-- The seven opcodes, in the order of the source's table (R82, R92 of 30_encoding.md). -/
inductive Opcode where
  | alpha | cmp | brac | bra | draw | move | endRun
deriving DecidableEq, Repr

/-- Every opcode once, in table order. -/
def Opcode.all : List Opcode := [.alpha, .cmp, .brac, .bra, .draw, .move, .endRun]

/-- `OPCODE_MAP` (R92): the 3-bit value of each opcode. It is to be injective (Sys2Proof/WellFormed.lean). -/
structure OpcodeMap where
  alpha : BitVec 3
  cmp : BitVec 3
  brac : BitVec 3
  bra : BitVec 3
  draw : BitVec 3
  move : BitVec 3
  endRun : BitVec 3
deriving DecidableEq, Repr

/-- The value the map gives an opcode. -/
def OpcodeMap.value (m : OpcodeMap) : Opcode → BitVec 3
  | .alpha => m.alpha
  | .cmp => m.cmp
  | .brac => m.brac
  | .bra => m.bra
  | .draw => m.draw
  | .move => m.move
  | .endRun => m.endRun

/-- `FIELD_PACKING` (R83 to R89, R91 of 30_encoding.md): where the fields sit in bits 12..0. -/
inductive FieldPacking where
  | msbFirst
  | lsbFirst
deriving DecidableEq, Repr

/-- `ALPHABET_SEED` (R34, D16): the alphabet registry at the start of a run. -/
inductive AlphabetSeed where
  /-- No symbol is declared. -/
  | empty
  /-- "every `letter` of an ALPHA word in the image" is declared (D16). -/
  | preScan
deriving DecidableEq, Repr

/-- `IMEM_UNLOADED` (R52 of 20_memory.md): what a fetch beyond the loaded image does. -/
inductive ImemUnloaded where
  /-- The fetch raises `ModelFault(UnloadedFetch)`. -/
  | fault
  /-- "each unloaded word equal[s] the 16-bit value `v`". -/
  | fill (v : Word)
deriving DecidableEq, Repr

/-- The eight parameters of R8. -/
structure Config where
  /-- `OPCODE_MAP` (R92, D1). -/
  opcodeMap : OpcodeMap
  /-- `FIELD_PACKING` (R91, D2). -/
  fieldPacking : FieldPacking
  /-- `GROW_FILL` (R177, D15): the cell a tape grows with; `Cell.symbol p` is the placeholder setting, for any `p`. -/
  growFill : Cell
  /-- `ALPHABET_SEED` (R34, D16). -/
  alphabetSeed : AlphabetSeed
  /-- `IMEM_UNLOADED` (R52, D6). -/
  imemUnloaded : ImemUnloaded
  /-- `TAPE_CAPACITY` (R61, R178, D12): the largest tape length, `none` where it is unbounded. -/
  tapeCapacity : Option Nat
  /-- `COUNTER_WIDTH` (R31, D11): the width of `steps` and `moves`, `none` where they are unbounded. -/
  counterWidth : Option Nat
  /-- `FLAG_RESET` (R28, D5): the equality flag at the start of a run. -/
  flagReset : Bool
deriving DecidableEq, Repr

end Sys2Proof
end

