-- ==== Sys2Proof/Machine/Defaults.lean ====
section
/-! DEFINITION. The default the spec takes for each parameter (R8 of 00_scope.md, with the decisions of 92_eei_decisions.md). -/

namespace Sys2Proof

/-- R92 (30_encoding.md), decision D1: the order of the source's table; 0b111 is left unassigned. -/
def OpcodeMap.default : OpcodeMap :=
  { alpha := 0b000, cmp := 0b001, brac := 0b010, bra := 0b011, draw := 0b100, move := 0b101, endRun := 0b110 }

/-- R8's column of defaults. -/
def Config.default : Config :=
  { opcodeMap := OpcodeMap.default
    fieldPacking := .msbFirst
    growFill := .blank
    alphabetSeed := .empty
    imemUnloaded := .fault
    tapeCapacity := none
    counterWidth := none
    flagReset := false }

end Sys2Proof
end

