-- ==== Sys2Proof/Machine/State.lean ====
section
/-! DEFINITION. The state of the machine: the tuple of R20 (10_state.md), the instruction memory (R51 of 20_memory.md) and
the machine's fixed parameters (R8 of 00_scope.md). -/

namespace Sys2Proof.Machine

/-- R32 (10_state.md): the run state. `halted` and `failed` are terminal. -/
inductive Status where
  | running
  | halted
  | failed
deriving DecidableEq, Repr

/-- The reasons of a `ModelFault` (R207 of 60_exceptions.md: "exactly" these two): the spec's way to stop the model
where the source gives no answer. -/
inductive Fault where
  /-- R52: a fetch of a word that is not loaded, under `IMEM_UNLOADED = Fault`. Raised by the fetch. SAFE: the model stops
  where the hardware may run on (D6). -/
  | unloadedFetch
  /-- R178: a MOVE that would grow a tape at `TAPE_CAPACITY`. Raised by MOVE. SAFE: the model stops where an
  implementation's behaviour is not given (D12). -/
  | tapeExhausted
deriving DecidableEq, Repr

/-- Why the model gives no meaning. -/
inductive Refusal where
  /-- An instruction without a meaning in exec. SAFE: the model stops. -/
  | notModelled (mnemonic : String)
  /-- The head lies outside the tape, which R36 (10_state.md) excludes "at every point of a run", so no cell is there.
  Raised by CMP, DRAW and MOVE. SAFE: no run reaches it (log entry 4). -/
  | headOutsideTape
deriving DecidableEq, Repr

/-- Instruction memory (R51): pairs of a word address and the word loaded there, addresses strictly rising. An address
that is not listed holds no value (R52). -/
abbrev Memory := List (Nat × Word)

/-- The machine's state. Reset values are `State.reset`'s and `startRun`'s. -/
structure State where
  /-- R8: the parameters, fixed for the machine (log entry 1). -/
  cfg : Config
  /-- R51, R53: the loaded words; read-only during a run. -/
  imem : Memory
  /-- R23: the program counter; its low 12 bits address instruction memory. -/
  pc : Word
  /-- R26, R27: the word last fetched; no value before the first fetch. -/
  ir : Option Word
  /-- R28: the equality flag. -/
  eq : Bool
  /-- R32: the run state. -/
  status : Status
  /-- R29: steps performed in this run. -/
  steps : Nat
  /-- R30: MOVE instructions executed in this run. -/
  moves : Nat
  /-- R33: bit `s` is 1 when symbol `s` is declared. -/
  alpha : BitVec 256
  /-- R35: the cells, from the left end. -/
  tape : List Cell
  /-- R36, R37: the index of the cell under the head, from the current left end. -/
  head : Nat
  /-- R207: the mark a `ModelFault` leaves. -/
  fault : Option Fault
deriving DecidableEq, Repr

/-- The machine right after reset (R231), at the default parameters (R8), with no image loaded and the tape of an empty
line (log entry 5; R239 gives that tape). -/
def State.reset : State :=
  { cfg := Config.default
    imem := []
    pc := 0x0000
    ir := none
    eq := false
    status := .running
    steps := 0
    moves := 0
    alpha := 0
    tape := [.blank]
    head := 0
    fault := none }

end Sys2Proof.Machine
end

