-- ==== Sys2Proof/Machine/Ops.lean ====
section
/-! DEFINITION. The named operations over instruction memory, the registers and the tape (R10 of 00_scope.md names the same
primitives), and the two ways a run stops: `halt` (R203) and `raise` (R207 of 60_exceptions.md). There is no trap entry (R200)
and no return (R211). -/

namespace Sys2Proof.Machine

/-! ### Instruction memory -/

/-- The canonical form: addresses strictly rising, each below 4096 (R51). -/
abbrev Memory.wf (m : Memory) : Prop :=
  (m.map Prod.fst).Pairwise (· < ·) ∧ ∀ c ∈ m, c.1 < 4096

/-- `IMemRead(a)` (R51): the word at `a`, `none` where none is loaded (R52). -/
def Memory.read : Memory → Nat → Option Word
  | [], _ => none
  | (b, v) :: rest, a => if a = b then some v else Memory.read rest a

/-- Puts the word `w` at `a` and keeps the form. Only loading does this: no instruction writes instruction memory (R53). -/
def Memory.write : Memory → Nat → Word → Memory
  | [], a, w => [(a, w)]
  | (b, v) :: rest, a, w =>
    if a < b then (a, w) :: (b, v) :: rest
    else if a = b then (a, w) :: rest
    else (b, v) :: Memory.write rest a w

/-! ### Fetch and the program counter -/

/-- R23 (10_state.md): instruction memory is addressed by `pc[11:0]`. -/
def pcAddr (pc : Word) : Addr := pc.extractLsb' 0 12

/-- R93, R150: a 12-bit address "zero-extended to 16 bits when written to `pc`". -/
def addrToPc (a : Addr) : Word := a.setWidth 16

/-- R112 (40_sequencer.md): `zext_16((pc[11:0] + 1) mod 4096)`. -/
def nextPc (pc : Word) : Word := addrToPc (pcAddr pc + 1)

/-- R52: what a word beyond the image reads as, `none` where fetching it raises `UnloadedFetch`. -/
def unloadedWord : ImemUnloaded → Option Word
  | .fault => none
  | .fill v => some v

/-- The word a step fetches (R111), `none` where the fetch raises `UnloadedFetch` (R52). -/
def State.fetchWord (s : State) : Option Word :=
  match s.imem.read (pcAddr s.pc).toNat with
  | some w => some w
  | none => unloadedWord s.cfg.imemUnloaded

/-- R31 (10_state.md): a counter's increment, on unbounded naturals or modulo 2^N. -/
def countUp (width : Option Nat) (n : Nat) : Nat :=
  match width with
  | none => n + 1
  | some k => (n + 1) % 2 ^ k

/-- R111: the writes a step makes before it executes: `ir`, `pc` and `steps`. -/
def State.fetched (s : State) (w : Word) : State :=
  { s with ir := some w, pc := nextPc s.pc, steps := countUp s.cfg.counterWidth s.steps }

/-- R150 (42_branch.md): a branch writes `pc`, "overriding the increment". -/
def State.jump (s : State) (a : Addr) : State := { s with pc := addrToPc a }

/-! ### Registers -/

/-- `eq <- v` (R28). -/
def State.setEq (s : State) (v : Bool) : State := { s with eq := v }

/-- `alpha[x] = 1` (R33). -/
def State.declared (s : State) (x : Symbol) : Bool := s.alpha.getLsbD x.toNat

/-- `alpha[x] <- 1` (R33, R131): idempotent, clears nothing. -/
def State.declare (s : State) (x : Symbol) : State :=
  { s with alpha := s.alpha ||| BitVec.twoPow 256 x.toNat }

/-- `moves <- moves + 1` (R30, R174), with R31's width. -/
def State.countMove (s : State) : State := { s with moves := countUp s.cfg.counterWidth s.moves }

/-! ### The tape -/

/-- `TapeRead()` (R57 of 20_memory.md): the cell under the head; `none` where the head is outside the tape, which R36
excludes (log entry 4). -/
def State.tapeRead (s : State) : Option Cell := s.tape[s.head]?

/-- `TapeWrite(c)` (R58): only the cell under the head changes. -/
def State.tapeWrite (s : State) (c : Cell) : State := { s with tape := s.tape.set s.head c }

/-- The two directions of `TapeMove` (R175). -/
inductive Dir where
  | left
  | right
deriving DecidableEq, Repr

/-- The head is at the edge it is to move toward, so the move grows the tape (R175). -/
def State.atEdge (s : State) : Dir → Bool
  | .left => s.head == 0
  | .right => s.head + 1 == s.tape.length

/-- The tape has reached `TAPE_CAPACITY` (R178); a tape already longer counts as full (log entry 6). -/
def State.tapeFull (s : State) : Bool :=
  match s.cfg.tapeCapacity with
  | none => false
  | some k => decide (k ≤ s.tape.length)

/-- R175 at an edge: one `GROW_FILL` cell on that side, and the head on it (R37: a growth on the left shifts the old
cells' indices up by one, so the head's index stays 0). -/
def State.grown (s : State) : Dir → State
  | .left => { s with tape := s.cfg.growFill :: s.tape }
  | .right => { s with tape := s.tape ++ [s.cfg.growFill], head := s.head + 1 }

/-- R175 away from an edge: the head moves by one, the tape stays. -/
def State.shifted (s : State) : Dir → State
  | .left => { s with head := s.head - 1 }
  | .right => { s with head := s.head + 1 }

/-- `TapeMove(dir)` (R175), with the capacity check before any change (R178, R208). -/
def State.tapeMove (s : State) (d : Dir) : Host.Outcome State Fault Refusal :=
  if s.atEdge d then
    if s.tapeFull then .fault .tapeExhausted else .next (s.grown d)
  else .next (s.shifted d)

/-! ### The ends of a run -/

/-- `halt(x)` (R203): sets the status and nothing else; entering a terminal state "saves nothing and moves nothing"
(R210). -/
def State.halt (s : State) (x : Status) : State := { s with status := x }

/-- `raise ModelFault(r)` (R207): sets the mark and nothing else, on the state before the step. -/
def State.raise (s : State) (r : Fault) : State := { s with fault := some r }

end Sys2Proof.Machine
end

