-- ==== Sys2Proof/Machine/Flags.lean ====
section
/-! DEFINITION. CMP's validity check, match value and flag (R130, R135, R136 of 41_alphabet_compare.md): the only flag
computation of the hardware (R28, R118). -/

namespace Sys2Proof.Machine

/-- R130: `valid(c) = case c of Blank => true | Symbol(s) => alpha[s] = 1`. -/
def State.valid (s : State) : Cell → Bool
  | .blank => true
  | .symbol x => s.declared x

/-- R136: the match value of CMP. -/
def cellMatch (c : Cell) (letter : Symbol) (blank : Bool) : Bool :=
  match blank, c with
  | true, .blank => true
  | true, .symbol _ => false
  | false, .blank => false
  | false, .symbol x => x == letter

/-- R135, steps 2 and 3: with `oring` set a flag already 1 is left unchanged, otherwise the flag is the match value. -/
def compareFlag (eq : Bool) (c : Cell) (letter : Symbol) (blank oring : Bool) : Bool :=
  if oring && eq then eq else cellMatch c letter blank

end Sys2Proof.Machine
end

