-- ==== Sys2Proof/Machine/Operands.lean ====
section
/-! DEFINITION. What the one-bit operand fields select (R82, R93 of 30_encoding.md). There is no register or memory operand
(R22): every operand is an immediate field. -/

namespace Sys2Proof.Machine

/-- DRAW's operand pair (R171): "Write `letter` to cell under head, or mark the cell blank if `blank` set". -/
def drawCell (letter : Symbol) (blank : Bool) : Cell := if blank then .blank else .symbol letter

/-- MOVE's operand (R173): 1 = one cell left, 0 = one cell right. -/
def moveDir (left : Bool) : Dir := if left then .left else .right

/-- END's operand (R190): "success if `halt` set, failure otherwise". -/
def endStatus (halt : Bool) : Status := if halt then .halted else .failed

end Sys2Proof.Machine
end

