-- ==== Sys2Proof/Machine/Alphabet.lean ====
section
/-! DEFINITION. ALPHA and CMP (41_alphabet_compare.md). A meaning runs on the state in which the step's `ir`, `pc` and `steps`
are already written (R111). -/

namespace Sys2Proof.Machine

/-- R131, R132. -/
def execAlpha (letter : Symbol) (s : State) : Host.Outcome State Fault Refusal := .next (s.declare letter)

/-- R135: the invalid-symbol check comes first and ends the run (R134, R202); then the flag. -/
def execCmp (letter : Symbol) (blank oring : Bool) (s : State) : Host.Outcome State Fault Refusal :=
  match s.tapeRead with
  | none => .refused .headOutsideTape
  | some c =>
    if s.valid c then .next (s.setEq (compareFlag s.eq c letter blank oring))
    else .next (s.halt .failed)

end Sys2Proof.Machine
end

