-- ==== Sys2Proof/Machine/Branch.lean ====
section
/-! DEFINITION. BRAC and BRA (42_branch.md). -/

namespace Sys2Proof.Machine

/-- R151: "true branch taken when flag==eq"; otherwise `pc` keeps the incremented value. -/
def execBrac (addr : Addr) (polarity : Bool) (s : State) : Host.Outcome State Fault Refusal :=
  .next (if s.eq = polarity then s.jump addr else s)

/-- R157. -/
def execBra (addr : Addr) (s : State) : Host.Outcome State Fault Refusal := .next (s.jump addr)

end Sys2Proof.Machine
end

