-- ==== Sys2Proof/Machine/System.lean ====
section
/-! DEFINITION. END (44_end.md) and NOP (R117 of 40_sequencer.md). -/

namespace Sys2Proof.Machine

/-- R190, R191: `pc` and `steps` keep what the step's fetch wrote. -/
def execEnd (halt : Bool) (s : State) : Host.Outcome State Fault Refusal := .next (s.halt (endStatus halt))

/-- R117: `execute(NOP) = skip`. -/
def execNop (s : State) : Host.Outcome State Fault Refusal := .next s

end Sys2Proof.Machine
end

