-- ==== Sys2Proof/Machine/Tape.lean ====
section
/-! DEFINITION. DRAW and MOVE (43_tape.md). -/

namespace Sys2Proof.Machine

/-- R171, R172. -/
def execDraw (letter : Symbol) (blank : Bool) (s : State) : Host.Outcome State Fault Refusal :=
  match s.tapeRead with
  | none => .refused .headOutsideTape
  | some _ => .next (s.tapeWrite (drawCell letter blank))

/-- R174: every MOVE counts once, whether or not it grows the tape (R176). A fault answered here stops the step with none
of its writes kept (R111, R207). -/
def execMove (left : Bool) (s : State) : Host.Outcome State Fault Refusal :=
  match s.tapeRead with
  | none => .refused .headOutsideTape
  | some _ => s.countMove.tapeMove (moveDir left)

end Sys2Proof.Machine
end

