-- ==== Sys2Proof/Syntax.lean ====
section
/-! DEFINITION. The instructions: the seven opcodes and the no-op of the unassigned eighth opcode value, each with its
immediate fields at their widths (R82 and R93 of 30_encoding.md). -/

namespace Sys2Proof

/-- One constructor per row of spec/opcode_table.json. Every operand is an immediate field of the word (R82); each width
is carried by its type and each one-bit field is a boolean (R93), so every term is an instruction (R97). -/
inductive Instr where
  /-- ALPHA (R131): declare `letter`. -/
  | alpha (letter : Symbol)
  /-- CMP (R133): compare the cell under the head. -/
  | cmp (letter : Symbol) (blank oring : Bool)
  /-- BRAC (R151): jump to `addr` when the equality flag equals `polarity`, the word's `eq` field. -/
  | brac (addr : Addr) (polarity : Bool)
  /-- BRA (R157): jump to `addr`. -/
  | bra (addr : Addr)
  /-- DRAW (R171): write the cell under the head. -/
  | draw (letter : Symbol) (blank : Bool)
  /-- MOVE (R173): move the head one cell. -/
  | move (left : Bool)
  /-- END (R190): terminate the run. -/
  | endRun (halt : Bool)
  /-- NOP (R117), the opcode value the map leaves unassigned (R94). -/
  | nop
deriving DecidableEq, Repr

end Sys2Proof
end

