-- ==== Sys2Proof/Machine/Dispatch.lean ====
section
/-! DEFINITION. `execute(i)` (R114 of 40_sequencer.md): one arm per instruction, no wildcard arm. -/

namespace Sys2Proof.Machine

def exec (i : Instr) (s : State) : Host.Outcome State Fault Refusal :=
  match i with
  | .alpha letter => Sys2Proof.Machine.execAlpha letter s
  | .cmp letter blank oring => Sys2Proof.Machine.execCmp letter blank oring s
  | .brac addr polarity => Sys2Proof.Machine.execBrac addr polarity s
  | .bra addr => Sys2Proof.Machine.execBra addr s
  | .draw letter blank => Sys2Proof.Machine.execDraw letter blank s
  | .move left => Sys2Proof.Machine.execMove left s
  | .endRun halt => Sys2Proof.Machine.execEnd halt s
  | .nop => Sys2Proof.Machine.execNop s

end Sys2Proof.Machine
end

