-- ==== Sys2Proof/WellFormed.lean ====
section
/-! DEFINITION. What is checked of a configuration. An instruction needs no check: its operands' ranges are the widths of
their types (R93 of 30_encoding.md), and every term of `Instr` is a legal instruction (R97). The check of an instruction memory
is `Machine.Memory.wf`, the check of a word's unused bits is `canonical`, and the check of an image file is `Machine.load`. -/

namespace Sys2Proof

/-- R92 (30_encoding.md): "any injective assignment of the seven opcodes to seven of the eight values". -/
abbrev OpcodeMap.wellFormed (m : OpcodeMap) : Prop := (Opcode.all.map m.value).Nodup

/-- The one condition R8 puts on its parameters: the opcode map is injective. -/
abbrev Config.wellFormed (cfg : Config) : Prop := cfg.opcodeMap.wellFormed

end Sys2Proof
end

