-- ==== Sys2Proof/Decode.lean ====
section
/-! DEFINITION. The decoder (R95 of 30_encoding.md), total over all 65536 words under every parameter setting, and after it the
encoder (R96), both read off the formats of R83 to R89 (`msbFirst`) and R91 (`lsbFirst`). -/

namespace Sys2Proof

/-- R81: "Top 3 bits select one of 7 opcodes", under both packings (R91). -/
def opcodeField (w : Word) : BitVec 3 := w.extractLsb' 13 3

/-- `letter` of ALPHA, CMP and DRAW: w[12:5] (R83, R84, R87) or w[7:0] (R91). -/
def letterField (p : FieldPacking) (w : Word) : Symbol :=
  match p with
  | .msbFirst => w.extractLsb' 5 8
  | .lsbFirst => w.extractLsb' 0 8

/-- `addr` of BRAC and BRA: w[12:1] (R85, R86) or w[11:0] (R91). -/
def addrField (p : FieldPacking) (w : Word) : Addr :=
  match p with
  | .msbFirst => w.extractLsb' 1 12
  | .lsbFirst => w.extractLsb' 0 12

/-- `blank` of CMP and DRAW: w[4] (R84, R87) or w[8] (R91). -/
def blankField (p : FieldPacking) (w : Word) : Bool :=
  match p with
  | .msbFirst => w.getLsbD 4
  | .lsbFirst => w.getLsbD 8

/-- `oring` of CMP: w[3] (R84) or w[9] (R91). -/
def oringField (p : FieldPacking) (w : Word) : Bool :=
  match p with
  | .msbFirst => w.getLsbD 3
  | .lsbFirst => w.getLsbD 9

/-- `eq` of BRAC: w[0] (R85) or w[12] (R91). -/
def polarityField (p : FieldPacking) (w : Word) : Bool :=
  match p with
  | .msbFirst => w.getLsbD 0
  | .lsbFirst => w.getLsbD 12

/-- `left` of MOVE and `halt` of END: w[12] (R88) or w[0] (R91). -/
def flagField (p : FieldPacking) (w : Word) : Bool :=
  match p with
  | .msbFirst => w.getLsbD 12
  | .lsbFirst => w.getLsbD 0

/-- The opcode whose value is `v`, `none` where the map assigns `v` to no opcode (R92). Where two opcodes share a value,
which R92 rules out, the first in table order answers (log entry 8). -/
def OpcodeMap.opcodeOf (m : OpcodeMap) (v : BitVec 3) : Option Opcode :=
  Opcode.all.find? (fun o => m.value o == v)

/-- R95 (30_encoding.md): a pure function, total over all words; the unassigned opcode value is NOP (R94). -/
def decode (cfg : Config) (w : Word) : Instr :=
  match cfg.opcodeMap.opcodeOf (opcodeField w) with
  | some .alpha => .alpha (letterField cfg.fieldPacking w)
  | some .cmp =>
    .cmp (letterField cfg.fieldPacking w) (blankField cfg.fieldPacking w) (oringField cfg.fieldPacking w)
  | some .brac => .brac (addrField cfg.fieldPacking w) (polarityField cfg.fieldPacking w)
  | some .bra => .bra (addrField cfg.fieldPacking w)
  | some .draw => .draw (letterField cfg.fieldPacking w) (blankField cfg.fieldPacking w)
  | some .move => .move (flagField cfg.fieldPacking w)
  | some .endRun => .endRun (flagField cfg.fieldPacking w)
  | none => .nop

/-- R55 (20_memory.md): a word of an image is `{byte[2k+1], byte[2k]}`, little-endian. -/
def wordOfBytes (lo hi : Byte) : Word := hi ++ lo

/-- Why bytes are not an instruction: fewer than two are left. No word is refused (R97). -/
inductive DecodeReject where
  | truncated
deriving DecidableEq, Repr

/-- The decoder on an image's bytes: the first instruction and the bytes after it. Every instruction is one word (R80). -/
def decodeBytes (cfg : Config) : List Byte → Except DecodeReject (Instr × List Byte)
  | lo :: hi :: rest => .ok (decode cfg (wordOfBytes lo hi), rest)
  | _ => .error .truncated

/-- The host's numbering is the spec's own (bit 0 least significant, R9), and an instruction is one word: bits above
`nbits` are 0. Under the default parameters (R8); no word is refused (R97). -/
def decodeTableWord (nbits w : Nat) : Option Instr :=
  some (decode Config.default (BitVec.ofNat 16 (w % 2 ^ nbits)))

/-- "the remaining value being NOP" (R92): the first 3-bit value that the map gives no opcode. -/
def OpcodeMap.unassigned (m : OpcodeMap) : BitVec 3 :=
  (((List.range 8).map (BitVec.ofNat 3)).find? (fun v => (m.opcodeOf v).isNone)).getD 0b111

/-- The opcode value of an instruction (R92). -/
def Instr.opcodeValue (m : OpcodeMap) : Instr → BitVec 3
  | .alpha _ => m.alpha
  | .cmp _ _ _ => m.cmp
  | .brac _ _ => m.brac
  | .bra _ => m.bra
  | .draw _ _ => m.draw
  | .move _ => m.move
  | .endRun _ => m.endRun
  | .nop => m.unassigned

/-- A field of any width put at bit `lo` of an otherwise zero word. -/
def fieldAt {n : Nat} (lo : Nat) (v : BitVec n) : Word := v.setWidth 16 <<< lo

/-- A one-bit field put at bit `lo` of an otherwise zero word (R93: 1 = true). -/
def bitAt (lo : Nat) (b : Bool) : Word := fieldAt lo (BitVec.ofBool b)

/-- Bits 12..0 of the canonical word: each field at its place, every unused bit 0 (R83 to R89, R91, R96). -/
def Instr.fieldBits (p : FieldPacking) (i : Instr) : Word :=
  match p, i with
  | .msbFirst, .alpha letter => fieldAt 5 letter
  | .msbFirst, .cmp letter blank oring => fieldAt 5 letter ||| bitAt 4 blank ||| bitAt 3 oring
  | .msbFirst, .brac addr polarity => fieldAt 1 addr ||| bitAt 0 polarity
  | .msbFirst, .bra addr => fieldAt 1 addr
  | .msbFirst, .draw letter blank => fieldAt 5 letter ||| bitAt 4 blank
  | .msbFirst, .move left => bitAt 12 left
  | .msbFirst, .endRun halt => bitAt 12 halt
  | .lsbFirst, .alpha letter => fieldAt 0 letter
  | .lsbFirst, .cmp letter blank oring => fieldAt 0 letter ||| bitAt 8 blank ||| bitAt 9 oring
  | .lsbFirst, .brac addr polarity => fieldAt 0 addr ||| bitAt 12 polarity
  | .lsbFirst, .bra addr => fieldAt 0 addr
  | .lsbFirst, .draw letter blank => fieldAt 0 letter ||| bitAt 8 blank
  | .lsbFirst, .move left => bitAt 0 left
  | .lsbFirst, .endRun halt => bitAt 0 halt
  | .msbFirst, .nop => 0
  | .lsbFirst, .nop => 0

/-- R96 (30_encoding.md): the canonical word of an instruction. -/
def encode (cfg : Config) (i : Instr) : Word :=
  fieldAt 13 (i.opcodeValue cfg.opcodeMap) ||| i.fieldBits cfg.fieldPacking

/-- The bits of a word that the decoder ignores, by the opcode value the word has (R83 to R91). -/
def unusedMask (cfg : Config) (w : Word) : Word :=
  match cfg.fieldPacking, cfg.opcodeMap.opcodeOf (opcodeField w) with
  | .msbFirst, some .alpha => 0x001F
  | .msbFirst, some .cmp => 0x0007
  | .msbFirst, some .brac => 0x0000
  | .msbFirst, some .bra => 0x0001
  | .msbFirst, some .draw => 0x000F
  | .msbFirst, some .move => 0x0FFF
  | .msbFirst, some .endRun => 0x0FFF
  | .lsbFirst, some .alpha => 0x1F00
  | .lsbFirst, some .cmp => 0x1C00
  | .lsbFirst, some .brac => 0x0000
  | .lsbFirst, some .bra => 0x1000
  | .lsbFirst, some .draw => 0x1E00
  | .lsbFirst, some .move => 0x1FFE
  | .lsbFirst, some .endRun => 0x1FFE
  | .msbFirst, none => 0x1FFF
  | .lsbFirst, none => 0x1FFF

/-- R96: a canonical word is one "whose unused bits are all 0". -/
abbrev canonical (cfg : Config) (w : Word) : Prop := w &&& unusedMask cfg w = 0

end Sys2Proof
end

