-- ==== Sys2Proof/Machine/Sequencer.lean ====
section
/-! DEFINITION. The step every instruction shares (R110, R111 of 40_sequencer.md), over the meaning of the decoded instruction. -/

namespace Sys2Proof.Machine

/-- R110: a step is performed "exactly when `status = Running` and `fault` is none". -/
abbrev State.enabled (s : State) : Prop := s.status = .running ∧ s.fault = none

/-- R111, R207: a `ModelFault` raised while executing "discards the ir, pc and steps writes" and leaves the state before
the step with the mark set; any other answer stands. -/
def commit (before : State) (o : Host.Outcome State Fault Refusal) : Host.Outcome State Fault Refusal :=
  match o with
  | .next t => .next t
  | .fault r => .next (before.raise r)
  | .refused r => .refused r

/-- R111: fetch, decode, increment `pc`, count the step, execute. -/
def perform (execute : Instr → State → Host.Outcome State Fault Refusal) (s : State) :
    Host.Outcome State Fault Refusal :=
  match s.fetchWord with
  | none => .next (s.raise .unloadedFetch)
  | some w => commit s (execute (decode s.cfg w) (s.fetched w))

/-- R110, R116, R207: a terminal state performs no step and keeps every value (log entry 2); a faulted state performs no
step and answers with its mark (log entry 3). -/
def sequenceStep (execute : Instr → State → Host.Outcome State Fault Refusal) (s : State) :
    Host.Outcome State Fault Refusal :=
  match s.fault with
  | some r => .fault r
  | none =>
    match s.status with
    | .running => perform execute s
    | .halted => .next s
    | .failed => .next s

/-- The state whose next step fetches the word `w` (log entry 13): `w` is put where the fetch reads, and the state is one
that performs a step (R110). -/
def placeFetchWord (s : State) (w : Word) : State :=
  { s with imem := s.imem.write (pcAddr s.pc).toNat w, status := .running, fault := none }

end Sys2Proof.Machine
end

