-- ==== Sys2Proof/Machine/Step.lean ====
section
/-! DEFINITION. One step of the machine (R111 of 40_sequencer.md), and the host's way to place the next instruction. -/

namespace Sys2Proof.Machine

/-- The step: the sequencer over `exec`. -/
def step (s : State) : Host.Outcome State Fault Refusal := sequenceStep exec s

/-- The state whose very next step runs the table word `w` of `nbits` bits (log entry 13). -/
def State.withFetchWord (s : State) (nbits w : Nat) : State :=
  placeFetchWord s (BitVec.ofNat 16 (w % 2 ^ nbits))

end Sys2Proof.Machine
end

