-- ==== Sys2Proof/Machine/HostInterface.lean ====
section
/-! DEFINITION. The narrow interface the core offers its host (70_reset_and_hazards.md, R235 to R240): loading an image, building
a tape from an input line, starting a run, reading the outcome. -/

namespace Sys2Proof.Machine

/-! ### Loading -/

/-- What the host offers to load: an image file that is missing, cannot be read, or has these bytes (R205, R236). -/
inductive ImageFile where
  | missing
  | unreadable
  | bytes (content : List Byte)
deriving DecidableEq, Repr

/-- R201: "reason: missing, unreadable, too large, odd length". -/
inductive LoadError where
  | missing
  | unreadable
  | tooLarge
  | oddLength
deriving DecidableEq, Repr

/-- R238: the image's words in file order, each little-endian (R55). -/
def wordsOfBytes : List Byte → List Word
  | lo :: hi :: rest => wordOfBytes lo hi :: wordsOfBytes rest
  | _ => []

/-- Words at consecutive addresses from `a` on (R52). -/
def Memory.ofWordsFrom : Nat → List Word → Memory
  | _, [] => []
  | a, w :: rest => (a, w) :: Memory.ofWordsFrom (a + 1) rest

/-- R52, R238: an image's words from address 0; the other addresses are unloaded. -/
def Memory.ofWords (ws : List Word) : Memory := Memory.ofWordsFrom 0 ws

/-- R236: "at most 8192 bytes", "an even number of bytes"; an empty image loads (R237). Where an image is both too large
and of odd length, the size is reported (log entry 9). -/
def load : ImageFile → Except LoadError Memory
  | .missing => .error .missing
  | .unreadable => .error .unreadable
  | .bytes b =>
    if 8192 < b.length then .error .tooLarge
    else if b.length % 2 = 1 then .error .oddLength
    else .ok (Memory.ofWords (wordsOfBytes b))

/-- R240: "program size in bits is 16 × n for an image of n words". -/
def programSizeBits (m : Memory) : Nat := 16 * m.length

/-! ### The initial tape -/

/-- R239: the cells of a line's content, one `Blank` for its terminator, and one `Blank` for an empty line. -/
def initialTape (content : List Byte) (terminated : Bool) : List Cell :=
  let cells := content.map .symbol ++ (if terminated then [.blank] else [])
  if cells = [] then [.blank] else cells

/-- A line's content and whether it is terminated: the terminator is a trailing "\n" or "\r\n" (R239, log entry 11). -/
def splitTerminator (line : List Byte) : List Byte × Bool :=
  match line.reverse with
  | b :: rest =>
    if b = 0x0A then
      match rest with
      | c :: rest' => if c = 0x0D then (rest'.reverse, true) else (rest.reverse, true)
      | [] => ([], true)
    else (line, false)
  | [] => ([], false)

/-- The initial tape of one input case line (R239). -/
def tapeOfLine (line : List Byte) : List Cell :=
  initialTape (splitTerminator line).1 (splitTerminator line).2

/-! ### The start of a run -/

/-- The registry after declaring the letters of the ALPHA words among `m`'s loaded words (D16, log entry 12). -/
def preScan (cfg : Config) : Memory → BitVec 256
  | [] => 0
  | (_, w) :: rest =>
    match decode cfg w with
    | .alpha letter => preScan cfg rest ||| BitVec.twoPow 256 letter.toNat
    | .cmp _ _ _ => preScan cfg rest
    | .brac _ _ => preScan cfg rest
    | .bra _ => preScan cfg rest
    | .draw _ _ => preScan cfg rest
    | .move _ => preScan cfg rest
    | .endRun _ => preScan cfg rest
    | .nop => preScan cfg rest

/-- `ALPHABET_SEED` (R34): the registry at the start of a run. -/
def seedAlphabet (cfg : Config) (m : Memory) : BitVec 256 :=
  match cfg.alphabetSeed with
  | .empty => 0
  | .preScan => preScan cfg m

/-- R231: the state at the start of a run of the loaded image over the initial tape `tape`. -/
def startRun (cfg : Config) (m : Memory) (tape : List Cell) : State :=
  { cfg := cfg
    imem := m
    pc := 0x0000
    ir := none
    eq := cfg.flagReset
    status := .running
    steps := 0
    moves := 0
    alpha := seedAlphabet cfg m
    tape := tape
    head := 0
    fault := none }

/-! ### The outcome -/

/-- R240: what the host reads at a terminal state; `final` is the rest of the final state (R40 of 10_state.md). -/
structure RunOutcome where
  status : Status
  tape : List Cell
  head : Nat
  ir : Option Word
  steps : Nat
  moves : Nat
  final : State
deriving DecidableEq, Repr

/-- R241: a run's outcome is the state after the first step that makes `status` terminal; a running or faulted state has
none (R207). -/
def outcomeOf (s : State) : Option RunOutcome :=
  match s.fault, s.status with
  | none, .halted => some ⟨s.status, s.tape, s.head, s.ir, s.steps, s.moves, s⟩
  | none, .failed => some ⟨s.status, s.tape, s.head, s.ir, s.steps, s.moves, s⟩
  | none, .running => none
  | some _, _ => none

end Sys2Proof.Machine
end

