-- ==== Sys2Proof/Machine/Session.lean ====
section
/-! DEFINITION. The host's moves on one core, R235 (70_reset_and_hazards.md): load, run, observe, abandon; and between them the
core's own steps. It stands beside the machine of Core.lean, whose `step` never depends on it. -/

namespace Sys2Proof.Machine

/-- The core as its host holds it: the parameters, the image loaded, and the one run there can be (R214). -/
structure Session where
  cfg : Config
  image : Option Memory
  run : Option State
deriving DecidableEq, Repr

/-- R235: "the host interactions are exactly these". -/
inductive HostMove where
  | load (file : ImageFile)
  | run (line : List Byte)
  | observe
  | abandon
deriving DecidableEq, Repr

/-- What the host gets back (R235). `turnedAway` answers a load or a run made where R235 gives it no place
(log entry 10); `observed none` and `nothing` answer an observe and an abandon without a run (log entry 15). -/
inductive HostReply where
  | loaded
  | loadError (e : LoadError)
  | started
  | observed (s : Option State)
  | nothing
  | turnedAway
deriving DecidableEq, Repr

/-- R235. A load error produces "no partial state" (R236), and an image loaded before stays loaded and can be run: the spec
does not say whether it survives (DESIGN CHOICE, log entry 14). A run needs a loaded image and starts from reset (R231, R211);
a run that is going on keeps its image, since "the host loads instruction memory only before a run begins" (R67). An untimely
load or run is turned away (DESIGN CHOICE, log entry 10). Where there is no run, observe answers that there is none and
abandon changes nothing (DESIGN CHOICE, log entry 15). -/
def hostMove (h : Session) : HostMove → Session × HostReply
  | .load file =>
    match h.run with
    | some _ => (h, .turnedAway)
    | none =>
      match load file with
      | .error e => (h, .loadError e)
      | .ok m => ({ h with image := some m }, .loaded)
  | .run line =>
    match h.run, h.image with
    | none, some m => ({ h with run := some (startRun h.cfg m (tapeOfLine line)) }, .started)
    | none, none => (h, .turnedAway)
    | some _, _ => (h, .turnedAway)
  | .observe => (h, .observed h.run)
  | .abandon => ({ h with run := none }, .nothing)

/-- The core's own move: one step of the run, and the outcome when that step ends the run (R241); the run's state is then
discarded (R21). A run stopped by a model fault stays to be observed or abandoned, without an outcome. -/
def coreMove (h : Session) : Session × Option RunOutcome :=
  match h.run with
  | none => (h, none)
  | some s =>
    match step s with
    | .fault _ => (h, none)
    | .refused _ => (h, none)
    | .next t =>
      match outcomeOf t with
      | some o => ({ h with run := none }, some o)
      | none => ({ h with run := some t }, none)

end Sys2Proof.Machine
end

