-- ==== Sys2Proof/Safety.lean ====
section
/-! DEFINITION. What a legal state and a safe run are, in the terms the statements use. -/

namespace Sys2Proof.Machine

/-- The states a run can be in, as the rules say "at every point of a run". A statement that could fail only elsewhere takes
this, or the clause it needs, as a premise. -/
structure State.Legal (s : State) : Prop where
  /-- R92: the opcode map is injective. -/
  map_injective : s.cfg.wellFormed
  /-- R51: instruction memory is in its canonical form, within its 4096 words. -/
  memory_canonical : s.imem.wf
  /-- R25: `pc[15:12]` is 0. -/
  pc_twelve_bits : s.pc.toNat < 4096
  /-- R36: the head is on the tape, which is therefore not empty (R35). -/
  head_on_tape : s.head < s.tape.length
  /-- R31: counters of width N hold values below 2^N. -/
  counters_fit : ∀ k, s.cfg.counterWidth = some k → s.steps < 2 ^ k ∧ s.moves < 2 ^ k
  /-- R29, R30: every MOVE is a step (unbounded counters). -/
  moves_are_steps : s.cfg.counterWidth = none → s.moves ≤ s.steps
  /-- R27: `ir` holds no value exactly until the first fetch (unbounded counters). -/
  ir_none_iff : s.cfg.counterWidth = none → (s.ir = none ↔ s.steps = 0)
  /-- R201 `OK`, R191: `Halted` is reached by an END with `halt` set, which `ir` still holds. -/
  halted_cause : s.status = .halted → ∃ w, s.ir = some w ∧ decode s.cfg w = .endRun true
  /-- R201 `EXPLICIT_FAIL` and `INVALID_SYMBOL`: `ir` holds an END with `halt` clear, or a CMP, and then "`tape[head]` = the
  offending symbol". -/
  failed_cause : s.status = .failed → ∃ w, s.ir = some w ∧
    (decode s.cfg w = .endRun false ∨
      (∃ letter blank oring, decode s.cfg w = .cmp letter blank oring) ∧
        ∃ x, s.tapeRead = some (.symbol x) ∧ s.declared x = false)
  /-- R207: a faulted state "has no `Halted`/`Failed` status". -/
  fault_is_not_terminal : s.fault ≠ none → s.status = .running

/-- R32: `Halted` and `Failed` are terminal. -/
abbrev State.terminal (s : State) : Prop := s.status = .halted ∨ s.status = .failed

/-- Every fetch finds a word: all 4096 words are loaded, or `IMEM_UNLOADED` fills the others (R52). -/
def State.fetchable (s : State) : Prop :=
  (∃ v, s.cfg.imemUnloaded = .fill v) ∨ ∀ a < 4096, s.imem.read a ≠ none

/-- `k` steps of the machine, stopping at the first fault or refusal (`Host.Core.run` of the core). -/
def runSteps : Nat → State → Host.Outcome State Fault Refusal
  | 0, s => .next s
  | k + 1, s =>
    match step s with
    | .next t => runSteps k t
    | .fault r => .fault r
    | .refused r => .refused r

/-- R207: "a claim about a run takes 'no fault' as a premise": after any number of steps the run is in some state and no
model fault has been raised. -/
def State.SafeRun (s : State) : Prop :=
  ∀ k, ∃ t, runSteps k s = .next t ∧ t.fault = none

/-! ### Terms of the statements, written from the rules' own arithmetic -/

/-- R31: one more, on unbounded naturals or modulo 2^N. -/
def State.counted (s : State) (n : Nat) : Nat :=
  match s.cfg.counterWidth with
  | none => n + 1
  | some k => (n + 1) % 2 ^ k

/-- R111: the state in which a step that fetched `w` executes: `ir` holds `w`, `pc` is `zext_16((pc[11:0] + 1) mod 4096)`
(R112), and the step is counted. -/
def State.afterFetch (s : State) (w : Word) : State :=
  { s with
    ir := some w
    pc := BitVec.ofNat 16 ((s.pc.toNat % 4096 + 1) % 4096)
    steps := s.counted s.steps }

/-- R51, R52: the fetch finds the word `w` at `pc[11:0]`: it is loaded there, or nothing is and `IMEM_UNLOADED` fills. -/
def State.fetches (s : State) (w : Word) : Prop :=
  s.imem.read (s.pc.toNat % 4096) = some w ∨
    (s.imem.read (s.pc.toNat % 4096) = none ∧ s.cfg.imemUnloaded = .fill w)

/-- R61, R178: the tape may grow by one cell. -/
def State.hasRoom (s : State) : Prop :=
  s.cfg.tapeCapacity = none ∨ ∃ k, s.cfg.tapeCapacity = some k ∧ s.tape.length < k

/-- R175: a MOVE in this direction grows the tape. -/
def State.growing (s : State) (left : Bool) : Prop :=
  if left then s.head = 0 else s.head = s.tape.length - 1

/-- R136: the match value of a cell. -/
def matchValue (c : Cell) (letter : Symbol) (blank : Bool) : Bool :=
  if blank then decide (c = .blank) else decide (c = .symbol letter)

/-- R130: the cell is valid, a blank or a declared symbol. -/
def State.validCell (s : State) (c : Cell) : Prop := ∀ x, c = .symbol x → s.alpha.getLsbD x.toNat = true

/-- R134, R135: what a CMP that saw the cell `c` leaves in `t`, from the flag and the status in `s`: over a valid cell the
flag's new value, over an invalid one a failed run with the flag as it was. -/
def State.comparedIn (s t : State) (valid : Prop) (c : Cell) (letter : Symbol) (blank oring : Bool) : Prop :=
  (valid → t.status = s.status ∧ t.eq = (oring && s.eq || matchValue c letter blank)) ∧
  (¬ valid → t.status = .failed ∧ t.eq = s.eq)

/-- Instructions executed one after another, stopping at the first fault or refusal. -/
def execAll : List Instr → State → Host.Outcome State Fault Refusal
  | [], s => .next s
  | i :: is, s =>
    match exec i s with
    | .next t => execAll is t
    | .fault r => .fault r
    | .refused r => .refused r

/-- An answer seen through a view of its next state. -/
def mapNext (f : State → State) (o : Host.Outcome State Fault Refusal) : Host.Outcome State Fault Refusal :=
  match o with
  | .next t => .next (f t)
  | .fault r => .fault r
  | .refused r => .refused r

/-- A state without what "no rule of the machine reads": the counters and their width (R31), and `ir` (R26, R27). -/
def State.forgetUnread (s : State) : State :=
  { s with cfg := { s.cfg with counterWidth := none }, ir := none, steps := 0, moves := 0 }

/-- What can happen to a session: a move of the host's, or one of the core's. -/
inductive SessionEvent where
  | host (m : HostMove)
  | core
deriving DecidableEq, Repr

/-- A session after a list of events. -/
def sessionAfter (h : Session) : List SessionEvent → Session
  | [] => h
  | .host m :: es => sessionAfter (hostMove h m).1 es
  | .core :: es => sessionAfter (coreMove h).1 es

end Sys2Proof.Machine
end

