-- ==== Sys2Proof/Certificates/Slice0/Obligations.lean ====
section
/-! DEFINITION. The statements for the provers, from the numbered rules of spec/. A result is written as an equality with the
state before, some fields replaced: it says the new values, the frame (every field not named, instruction memory and the tape
among them, is unchanged), and that the instruction completes. -/

open Sys2Proof Sys2Proof.Machine

/-! ### Encoding and decoding -/

/-- The worked encodings of R101, which the spec marks as derived from R83 to R96, in both directions. -/
def Obligations.WorkedEncodingsOfTheSpec : Prop :=
  ∀ p ∈ ([(.alpha 0x61, 0x0C20), (.cmp 0x61 false false, 0x2C20), (.brac 0 true, 0x4001), (.endRun true, 0xD000),
      (.endRun false, 0xC000), (.draw 0x78 false, 0x8F00), (.move false, 0xA000), (.move true, 0xB000),
      (.bra 4095, 0x7FFE), (.nop, 0xE000)] : List (Instr × Word)),
    encode Config.default p.1 = p.2 ∧ decode Config.default p.2 = p.1

/-- R95: the default decoder on every word, each field computed from the word's number. -/
def Obligations.DefaultDecoderReadsEveryWord : Prop :=
  ∀ w : Word, decode Config.default w =
    match w.toNat / 8192 with
    | 0 => .alpha (BitVec.ofNat 8 (w.toNat / 32 % 256))
    | 1 => .cmp (BitVec.ofNat 8 (w.toNat / 32 % 256)) (w.toNat.testBit 4) (w.toNat.testBit 3)
    | 2 => .brac (BitVec.ofNat 12 (w.toNat / 2 % 4096)) (w.toNat.testBit 0)
    | 3 => .bra (BitVec.ofNat 12 (w.toNat / 2 % 4096))
    | 4 => .draw (BitVec.ofNat 8 (w.toNat / 32 % 256)) (w.toNat.testBit 4)
    | 5 => .move (w.toNat.testBit 12)
    | 6 => .endRun (w.toNat.testBit 12)
    | _ => .nop

/-- R83 to R89: the formats under `MsbFirst`, for any opcode map; `u` is the value of the unused bits. -/
def Obligations.MsbFirstFormats : Prop :=
  ∀ (cfg : Config) (w : Word), cfg.wellFormed → cfg.fieldPacking = .msbFirst →
    (∀ letter u, u < 32 → w.toNat = cfg.opcodeMap.alpha.toNat * 8192 + letter.toNat * 32 + u →
      decode cfg w = .alpha letter) ∧
    (∀ letter (blank oring : Bool) u, u < 8 →
      w.toNat = cfg.opcodeMap.cmp.toNat * 8192 + letter.toNat * 32 + blank.toNat * 16 + oring.toNat * 8 + u →
      decode cfg w = .cmp letter blank oring) ∧
    (∀ addr (e : Bool), w.toNat = cfg.opcodeMap.brac.toNat * 8192 + addr.toNat * 2 + e.toNat →
      decode cfg w = .brac addr e) ∧
    (∀ addr u, u < 2 → w.toNat = cfg.opcodeMap.bra.toNat * 8192 + addr.toNat * 2 + u → decode cfg w = .bra addr) ∧
    (∀ letter (blank : Bool) u, u < 16 →
      w.toNat = cfg.opcodeMap.draw.toNat * 8192 + letter.toNat * 32 + blank.toNat * 16 + u →
      decode cfg w = .draw letter blank) ∧
    (∀ (left : Bool) u, u < 4096 → w.toNat = cfg.opcodeMap.move.toNat * 8192 + left.toNat * 4096 + u →
      decode cfg w = .move left) ∧
    (∀ (halt : Bool) u, u < 4096 → w.toNat = cfg.opcodeMap.endRun.toNat * 8192 + halt.toNat * 4096 + u →
      decode cfg w = .endRun halt) ∧
    (∀ v : BitVec 3, (∀ o, cfg.opcodeMap.value o ≠ v) → w.toNat / 8192 = v.toNat → decode cfg w = .nop)

/-- R91: the formats under `LsbFirst`, for any opcode map; `u` is the value of the unused bits above the fields. -/
def Obligations.LsbFirstFormats : Prop :=
  ∀ (cfg : Config) (w : Word), cfg.wellFormed → cfg.fieldPacking = .lsbFirst →
    (∀ letter u, u < 32 → w.toNat = cfg.opcodeMap.alpha.toNat * 8192 + u * 256 + letter.toNat →
      decode cfg w = .alpha letter) ∧
    (∀ letter (blank oring : Bool) u, u < 8 →
      w.toNat = cfg.opcodeMap.cmp.toNat * 8192 + u * 1024 + oring.toNat * 512 + blank.toNat * 256 + letter.toNat →
      decode cfg w = .cmp letter blank oring) ∧
    (∀ addr (e : Bool), w.toNat = cfg.opcodeMap.brac.toNat * 8192 + e.toNat * 4096 + addr.toNat →
      decode cfg w = .brac addr e) ∧
    (∀ addr u, u < 2 → w.toNat = cfg.opcodeMap.bra.toNat * 8192 + u * 4096 + addr.toNat → decode cfg w = .bra addr) ∧
    (∀ letter (blank : Bool) u, u < 16 →
      w.toNat = cfg.opcodeMap.draw.toNat * 8192 + u * 512 + blank.toNat * 256 + letter.toNat →
      decode cfg w = .draw letter blank) ∧
    (∀ (left : Bool) u, u < 4096 → w.toNat = cfg.opcodeMap.move.toNat * 8192 + u * 2 + left.toNat →
      decode cfg w = .move left) ∧
    (∀ (halt : Bool) u, u < 4096 → w.toNat = cfg.opcodeMap.endRun.toNat * 8192 + u * 2 + halt.toNat →
      decode cfg w = .endRun halt) ∧
    (∀ v : BitVec 3, (∀ o, cfg.opcodeMap.value o ≠ v) → w.toNat / 8192 = v.toNat → decode cfg w = .nop)

/-- R92: the default map's values, and under any injective map exactly one value is NOP's. -/
def Obligations.ExactlyOneOpcodeValueIsNop : Prop :=
  (Opcode.all.map Config.default.opcodeMap.value = [0b000, 0b001, 0b010, 0b011, 0b100, 0b101, 0b110]) ∧
  (∀ w : Word, decode Config.default w = .nop ↔ w.toNat / 8192 = 0b111) ∧
  (∀ cfg : Config, cfg.wellFormed → ∃! v : BitVec 3, ∀ w : Word, decode cfg w = .nop ↔ w.toNat / 8192 = v.toNat)

/-- R96, R91, R92 (the first law of R96, under every parameter setting). -/
def Obligations.DecodeOfEncodeIsTheInstruction : Prop :=
  ∀ (cfg : Config) (i : Instr), cfg.wellFormed → decode cfg (encode cfg i) = i

/-- R96 and conflict C2: re-encoding gives back exactly the canonical words. -/
def Obligations.ReencodingRestoresExactlyCanonicalWords : Prop :=
  ∀ (cfg : Config) (w : Word), cfg.wellFormed → (encode cfg (decode cfg w) = w ↔ canonical cfg w)

/-- R90: words that differ in unused bits only decode alike and execute identically (the next states differ in `ir` and in
the image alone), and a canonical encoding has every unused bit 0. -/
def Obligations.UnusedBitsAreIgnored : Prop :=
  (∀ (cfg : Config) (w w' : Word), (w ^^^ w') &&& ~~~(unusedMask cfg w) = 0 → decode cfg w = decode cfg w' ∧
    ∀ (s : State) (m m' : Memory), s.cfg = cfg →
      m.read (s.pc.toNat % 4096) = some w → m'.read (s.pc.toNat % 4096) = some w' →
      mapNext (fun t => { t with ir := none, imem := [] }) (step { s with imem := m }) =
        mapNext (fun t => { t with ir := none, imem := [] }) (step { s with imem := m' })) ∧
  (∀ (cfg : Config) (i : Instr), cfg.wellFormed → encode cfg i &&& unusedMask cfg (encode cfg i) = 0)

/-! ### Reset and the host interface -/

/-- R231: a run that the host starts has each reset value; the defaults of FLAG_RESET and ALPHABET_SEED. -/
def Obligations.RunStartsFromTheResetValues : Prop :=
  (∀ (h : Session) (m : Memory) (line : List Byte), h.run = none → h.image = some m →
    ∃ s, (hostMove h (.run line)).1.run = some s ∧ s.cfg = h.cfg ∧ s.imem = m ∧
      s.pc = 0x0000 ∧ s.ir = none ∧ s.eq = h.cfg.flagReset ∧ s.status = .running ∧ s.steps = 0 ∧ s.moves = 0 ∧
      (h.cfg.alphabetSeed = .empty → s.alpha = 0) ∧ s.tape = tapeOfLine line ∧ s.head = 0 ∧ s.fault = none) ∧
  Config.default.flagReset = false ∧ Config.default.alphabetSeed = .empty

/-- R236, R238, R56: which images load, where their words lie, and that a load error leaves nothing loaded. (Where an image
was loaded before it, FailedLoadKeepsTheEarlierImage.) -/
def Obligations.ImagesLoadWordByWord : Prop :=
  (∀ f, (∃ m, load f = .ok m) ↔ ∃ b, f = .bytes b ∧ b.length % 2 = 0 ∧ b.length ≤ 8192) ∧
  (∀ b m, load (.bytes b) = .ok m →
    (∀ k lo hi, b[2 * k]? = some lo → b[2 * k + 1]? = some hi → m.read k = some (hi ++ lo)) ∧
    (∀ a, b.length / 2 ≤ a → m.read a = none)) ∧
  (∀ h f e, h.run = none → h.image = none → load f = .error e → hostMove h (.load f) = (h, .loadError e))

/-- The model's choice where an image is loaded already (log entry 14): a failed load leaves it loaded, so that the next run
is a run of it. -/
def Obligations.FailedLoadKeepsTheEarlierImage : Prop :=
  ∀ (h : Session) (m : Memory) (f : ImageFile) (e : LoadError) (line : List Byte), h.run = none → h.image = some m →
    load f = .error e → hostMove h (.load f) = (h, .loadError e) ∧
      (hostMove (hostMove h (.load f)).1 (.run line)).1.run = some (startRun h.cfg m (tapeOfLine line))

/-- R237: with the empty image loaded, the first step of every run raises `UnloadedFetch` under the default
`IMEM_UNLOADED`. -/
def Obligations.EmptyImageLoadsAndItsRunsFault : Prop :=
  ∃ m, load (.bytes []) = .ok m ∧ m.length = 0 ∧
    ∀ (cfg : Config) (tape : List Cell), cfg.imemUnloaded = .fault →
      step (startRun cfg m tape) = .next { startRun cfg m tape with fault := some .unloadedFetch }

/-- R239: the initial tape of a line's content `c` without terminator, with "\n" and with "\r\n". That these are
the bytes 0x0A and 0x0D, as in ASCII, is PRESUMED in log entry 11. Content that itself ends in a byte of a terminator is
TrailingTerminatorIsTakenOnce's. -/
def Obligations.InitialTapeOfALine : Prop :=
  (∀ c : List Byte, c.getLast? ≠ some 0x0A → c.getLast? ≠ some 0x0D →
    tapeOfLine c = (if c = [] then [.blank] else c.map .symbol) ∧
    tapeOfLine (c ++ [0x0A]) = c.map .symbol ++ [.blank] ∧
    tapeOfLine (c ++ [0x0D, 0x0A]) = c.map .symbol ++ [.blank]) ∧
  (∀ cfg m tape, (startRun cfg m tape).head = 0 ∧ (startRun cfg m tape).tape = tape)

/-- The model's reading of R239 where content ends in a terminator byte (log entry 11, DEDUCED, with PRESUMED bytes): one
terminator is taken, the longer one where both fit, and a "\r" that no "\n" follows is content. -/
def Obligations.TrailingTerminatorIsTakenOnce : Prop :=
  (∀ c : List Byte, tapeOfLine (c ++ [0x0A, 0x0A]) = c.map .symbol ++ [.symbol 0x0A, .blank]) ∧
  (∀ c : List Byte, tapeOfLine (c ++ [0x0A, 0x0D, 0x0A]) = c.map .symbol ++ [.symbol 0x0A, .blank]) ∧
  (∀ c : List Byte, tapeOfLine (c ++ [0x0D, 0x0D, 0x0A]) = c.map .symbol ++ [.symbol 0x0D, .blank]) ∧
  (∀ c : List Byte, tapeOfLine (c ++ [0x0D]) = c.map .symbol ++ [.symbol 0x0D])

/-- Decision D16 (`PreScan`, log entry 12): exactly the letters of the image's ALPHA words are declared at the start. -/
def Obligations.PreScanDeclaresTheLettersOfTheImage : Prop :=
  ∀ (cfg : Config) (m : Memory) (tape : List Cell) (x : Symbol), cfg.alphabetSeed = .preScan →
    ((startRun cfg m tape).alpha.getLsbD x.toNat = true ↔ ∃ c ∈ m, decode cfg c.2 = .alpha x)

/-- R240: the outcome is read exactly at the step that makes the status terminal, and is that state; the program's size. -/
def Obligations.OutcomeIsReadAtTheTerminalState : Prop :=
  (∀ (h : Session) (s t : State), h.run = some s → s.enabled → step s = .next t →
    ((coreMove h).2.isSome = true ↔ t.status = .halted ∨ t.status = .failed) ∧
    (∀ o, (coreMove h).2 = some o → o.status = t.status ∧ o.tape = t.tape ∧ o.head = t.head ∧ o.ir = t.ir ∧
      o.steps = t.steps ∧ o.moves = t.moves ∧ o.final = t)) ∧
  (∀ b m, load (.bytes b) = .ok m → programSizeBits m = 16 * (b.length / 2))

/-- R211: whatever ran before in the session, the next run of the loaded image starts from reset; a run that is over is not
there to be resumed. (Where the session turns a host move away is log entry 10, and an abandon without a run is
log entry 15.) -/
def Obligations.NextRunStartsFresh : Prop :=
  ∀ (h : Session) (m : Memory) (es : List SessionEvent) (line : List Byte), h.image = some m →
    (∀ f, SessionEvent.host (.load f) ∉ es) → (sessionAfter h es).run = none →
    (hostMove (sessionAfter h es) (.run line)).1.run = some (startRun h.cfg m (tapeOfLine line))

/-! ### The step -/

/-- R111: a step that is enabled fetches, decodes, increments, counts and executes; a `ModelFault` of the fetch or of the
execution leaves only its mark on the state before. -/
def Obligations.StepRunsTheDecodedInstruction : Prop :=
  ∀ s : State, s.status = .running → s.fault = none →
    (∀ w, s.fetches w →
      (∀ t, exec (decode s.cfg w) (s.afterFetch w) = .next t → step s = .next t) ∧
      (∀ r, exec (decode s.cfg w) (s.afterFetch w) = .fault r → step s = .next { s with fault := some r })) ∧
    (s.imem.read (s.pc.toNat % 4096) = none → s.cfg.imemUnloaded = .fault →
      step s = .next { s with fault := some .unloadedFetch })

/-- The interface's `withFetchWord` (log entry 13): its very next step fetches the placed word, and nothing it reads besides
is changed. -/
def Obligations.PlacedWordIsFetchedNext : Prop :=
  ∀ (s : State) (w : Word),
    (s.withFetchWord 16 w.toNat).fetches w ∧ (s.withFetchWord 16 w.toNat).enabled ∧
    (∀ a, a ≠ s.pc.toNat % 4096 → (s.withFetchWord 16 w.toNat).imem.read a = s.imem.read a) ∧
    s.withFetchWord 16 w.toNat =
      { s with imem := (s.withFetchWord 16 w.toNat).imem, status := .running, fault := none }

/-- R112: the increment, and the wrap at 4095. -/
def Obligations.PcIncrementsModulo4096 : Prop :=
  ∀ (s t : State) (w : Word), s.enabled → s.fetches w → step s = .next t → t.fault = none →
    (∀ a, decode s.cfg w ≠ .bra a) → (∀ a, decode s.cfg w ≠ .brac a s.eq) →
    t.pc.toNat = (s.pc.toNat % 4096 + 1) % 4096 ∧ (s.pc.toNat % 4096 = 4095 → t.pc = 0x0000)

/-- R113 (and R31's widths): every step that fetches counts once; a step that raises a `ModelFault` does not. -/
def Obligations.EveryFetchedStepCountsOnce : Prop :=
  ∀ s t : State, s.enabled → step s = .next t →
    (t.fault = none →
      (s.cfg.counterWidth = none → t.steps = s.steps + 1) ∧
      (∀ n, s.cfg.counterWidth = some n → t.steps = (s.steps + 1) % 2 ^ n)) ∧
    (t.fault ≠ none → t.steps = s.steps)

/-- R30: `moves` counts the MOVE instructions executed, and starts at 0. -/
def Obligations.MovesCountsExactlyTheMoves : Prop :=
  (∀ (s t : State) (w : Word), s.enabled → s.fetches w → step s = .next t → t.fault = none →
    (∀ left, decode s.cfg w = .move left →
      (s.cfg.counterWidth = none → t.moves = s.moves + 1) ∧
      (∀ n, s.cfg.counterWidth = some n → t.moves = (s.moves + 1) % 2 ^ n)) ∧
    ((∀ left, decode s.cfg w ≠ .move left) → t.moves = s.moves)) ∧
  (∀ s t : State, s.enabled → step s = .next t → t.fault ≠ none → t.moves = s.moves) ∧
  (∀ cfg m tape, (startRun cfg m tape).moves = 0)

/-- R207: raising a `ModelFault` commits nothing but the mark; its reasons are the two; no step follows. -/
def Obligations.ModelFaultCommitsNothingElse : Prop :=
  (∀ s t : State, s.enabled → step s = .next t → t.fault ≠ none →
    t = { s with fault := t.fault } ∧ t.status ≠ .halted ∧ t.status ≠ .failed) ∧
  (∀ r : Fault, r = .unloadedFetch ∨ r = .tapeExhausted) ∧
  (∀ (s t : State) (r : Fault), s.fault = some r → step s ≠ .next t)

/-- R178: at `TAPE_CAPACITY` a growing MOVE raises `TapeExhausted` and performs nothing; a MOVE that does not grow the tape
is unaffected; unbounded, the rule never applies. -/
def Obligations.ExhaustedTapeStopsAGrowingMove : Prop :=
  ∀ (s : State) (w : Word) (left : Bool), s.enabled → s.fetches w → decode s.cfg w = .move left →
    s.head < s.tape.length →
    (s.cfg.tapeCapacity = some s.tape.length → s.growing left →
      step s = .next { s with fault := some .tapeExhausted }) ∧
    (¬ s.growing left → ∃ t, step s = .next t ∧ t.fault = none ∧ t.tape = s.tape) ∧
    (s.cfg.tapeCapacity = none → ∃ t, step s = .next t ∧ t.fault = none)

/-- R202: a CMP over an undeclared symbol is the whole step's normal outcome `Failed`; its fetch, increment and count stand. -/
def Obligations.InvalidSymbolFailsTheRun : Prop :=
  ∀ (s : State) (w : Word) (letter : Symbol) (blank oring : Bool) (x : Symbol), s.enabled → s.fetches w →
    decode s.cfg w = .cmp letter blank oring → s.tape[s.head]? = some (.symbol x) → s.alpha.getLsbD x.toNat = false →
    step s = .next { s.afterFetch w with status := .failed }

/-- R116: END and a failing CMP, and nothing else, make the status terminal; then every value stays for good. -/
def Obligations.TerminalStatesAreReachedAndKept : Prop :=
  (∀ (s : State) (w : Word) (halt : Bool), s.enabled → s.fetches w → decode s.cfg w = .endRun halt →
    ∃ t, step s = .next t ∧ t.status = if halt then .halted else .failed) ∧
  (∀ (s : State) (w : Word) (letter : Symbol) (blank oring : Bool) (x : Symbol), s.enabled → s.fetches w →
    decode s.cfg w = .cmp letter blank oring → s.tape[s.head]? = some (.symbol x) → s.alpha.getLsbD x.toNat = false →
    ∃ t, step s = .next t ∧ t.status = .failed) ∧
  (∀ s t : State, s.enabled → step s = .next t → t.status ≠ .running →
    ∃ w, s.fetches w ∧ ((∃ halt, decode s.cfg w = .endRun halt) ∨
      ((∃ letter blank oring, decode s.cfg w = .cmp letter blank oring) ∧ t.status = .failed ∧
        ∃ x, s.tape[s.head]? = some (.symbol x) ∧ s.alpha.getLsbD x.toNat = false))) ∧
  (∀ (t u : State) (k : Nat), t.status ≠ .running → runSteps k t = .next u → u = t)

/-! ### Instructions -/

/-- R131: ALPHA declares its letter and does nothing else; it never fails, whatever the tape and the registry hold. -/
def Obligations.AlphaDeclaresItsLetter : Prop :=
  (∀ (letter : Symbol) (s : State), ∃ t, exec (.alpha letter) s = .next t ∧
    (∀ x : Symbol, t.alpha.getLsbD x.toNat = true ↔ x = letter ∨ s.alpha.getLsbD x.toNat = true) ∧
    t = { s with alpha := t.alpha }) ∧
  (∀ (letter : Symbol) (w : Word) (u : Nat), u < 32 → w.toNat = 0b000 * 8192 + letter.toNat * 32 + u →
    decode Config.default w = .alpha letter) ∧
  (∀ s : State, s.alpha = 0 → ∃ t, exec (decode Config.default 0x0C20) s = .next t ∧
    ∀ x : Symbol, t.alpha.getLsbD x.toNat = true ↔ x = 0x61)

/-- R132 (and R33): declarations come from ALPHA only, one symbol each, and are never cleared; every symbol can be
declared, whatever the tape holds; declaring again changes nothing. -/
def Obligations.DeclarationsOnlyGrowAndOnlyByAlpha : Prop :=
  (∀ (k : Nat) (s t : State) (x : Symbol), runSteps k s = .next t → s.alpha.getLsbD x.toNat = true →
    t.alpha.getLsbD x.toNat = true) ∧
  (∀ (s t : State) (x : Symbol), s.enabled → step s = .next t → s.alpha.getLsbD x.toNat = false →
    t.alpha.getLsbD x.toNat = true → ∃ w, s.fetches w ∧ decode s.cfg w = .alpha x) ∧
  (∀ (s : State) (x : Symbol), s.alpha.getLsbD x.toNat = true → exec (.alpha x) s = .next s) ∧
  (∀ (s : State) (x : Symbol), ∃ t, exec (.alpha x) s = .next t ∧ t.alpha.getLsbD x.toNat = true)

/-- R130, R133 to R136: CMP, the check before the flag, the flag's three steps, and the encoding. -/
def Obligations.CmpChecksThenComparesTheCell : Prop :=
  (∀ (letter : Symbol) (blank oring : Bool) (s : State) (c : Cell), s.tape[s.head]? = some c →
    ((∃ x, c = .symbol x ∧ s.alpha.getLsbD x.toNat = false) →
      exec (.cmp letter blank oring) s = .next { s with status := .failed }) ∧
    ((∀ x, c = .symbol x → s.alpha.getLsbD x.toNat = true) →
      (oring = true ∧ s.eq = true → exec (.cmp letter blank oring) s = .next s) ∧
      (¬ (oring = true ∧ s.eq = true) → exec (.cmp letter blank oring) s =
        .next { s with eq := if blank then decide (c = .blank) else decide (c = .symbol letter) }))) ∧
  (∀ (letter : Symbol) (blank oring : Bool) (w : Word) (u : Nat), u < 8 →
    w.toNat = 0b001 * 8192 + letter.toNat * 32 + blank.toNat * 16 + oring.toNat * 8 + u →
    decode Config.default w = .cmp letter blank oring)

/-- R138, which the spec marks as derived from R135: the OR chain over a valid cell ends with the flag set exactly when the cell is one of the letters; a set flag
stays set through `oring` CMPs, and a CMP without `oring` overwrites it. -/
def Obligations.OrChainMatchesAnyOfItsLetters : Prop :=
  (∀ (s : State) (c : Cell) (a : Symbol) (letters : List Symbol), s.tape[s.head]? = some c →
    (∀ x, c = .symbol x → s.alpha.getLsbD x.toNat = true) →
    execAll (.cmp a false false :: letters.map (fun l => .cmp l false true)) s =
      .next { s with eq := (a :: letters).any (fun l => decide (c = .symbol l)) }) ∧
  (∀ (s t : State) (letter : Symbol) (blank : Bool), s.eq = true → exec (.cmp letter blank true) s = .next t →
    t.eq = true) ∧
  (∀ (s t : State) (letter : Symbol) (blank : Bool) (v : Bool), exec (.cmp letter blank false) s = .next t →
    t.status ≠ .failed → ∃ t', exec (.cmp letter blank false) { s with eq := v } = .next t' ∧ t'.eq = t.eq)

/-- R28: the flag is written by CMP only; apart from BRAC, no instruction's effect on anything but the flag depends on it;
the flag a CMP without `oring` leaves does not depend on it either, unless the CMP fails; FLAG_RESET is its start. -/
def Obligations.EqualityFlagIsCmpsAndBracs : Prop :=
  (∀ (i : Instr) (s t : State), exec i s = .next t →
    (∀ letter blank oring, i ≠ .cmp letter blank oring) → t.eq = s.eq) ∧
  (∀ (i : Instr) (s : State) (v : Bool), (∀ a e, i ≠ .brac a e) →
    mapNext (fun t => { t with eq := false }) (exec i { s with eq := v }) =
      mapNext (fun t => { t with eq := false }) (exec i s)) ∧
  (∀ (letter : Symbol) (blank v : Bool) (s t : State), exec (.cmp letter blank false) s = .next t →
    t.status = s.status → s.status ≠ .failed → exec (.cmp letter blank false) { s with eq := v } = .next t) ∧
  (∀ cfg m tape, (startRun cfg m tape).eq = cfg.flagReset) ∧ Config.default.flagReset = false

/-- R151: BRAC, both polarities, and its encoding. -/
def Obligations.BracJumpsWhenTheFlagMatches : Prop :=
  (∀ (addr : Addr) (e : Bool) (s : State),
    (s.eq = e → exec (.brac addr e) s = .next { s with pc := BitVec.ofNat 16 addr.toNat }) ∧
    (s.eq ≠ e → exec (.brac addr e) s = .next s)) ∧
  (∀ (addr : Addr) (e : Bool) (w : Word), w.toNat = 0b010 * 8192 + addr.toNat * 2 + e.toNat →
    decode Config.default w = .brac addr e)

/-- R157: BRA, and its encoding. -/
def Obligations.BraJumps : Prop :=
  (∀ (addr : Addr) (s : State), exec (.bra addr) s = .next { s with pc := BitVec.ofNat 16 addr.toNat }) ∧
  (∀ (addr : Addr) (w : Word) (u : Nat), u < 2 → w.toNat = 0b011 * 8192 + addr.toNat * 2 + u →
    decode Config.default w = .bra addr)

/-- R171 and R58: DRAW writes the cell under the head, every other cell reads as before, and nothing else changes. -/
def Obligations.DrawWritesTheCellUnderTheHead : Prop :=
  (∀ (letter : Symbol) (blank : Bool) (s : State), s.head < s.tape.length → ∃ t,
    exec (.draw letter blank) s = .next t ∧ t = { s with tape := t.tape } ∧ t.tape.length = s.tape.length ∧
    t.tape[s.head]? = some (if blank then .blank else .symbol letter) ∧
    (∀ j, j ≠ s.head → t.tape[j]? = s.tape[j]?)) ∧
  (∀ (letter : Symbol) (blank : Bool) (w : Word) (u : Nat), u < 16 →
    w.toNat = 0b100 * 8192 + letter.toNat * 32 + blank.toNat * 16 + u → decode Config.default w = .draw letter blank)

/-- R173 to R175: MOVE, its four moves and the capacity stop, and its encoding. -/
def Obligations.MoveMovesTheHeadAndGrowsTheTape : Prop :=
  (∀ s : State, s.head < s.tape.length →
    (s.head = 0 → s.hasRoom → exec (.move true) s =
      .next { s with tape := s.cfg.growFill :: s.tape, head := 0, moves := s.counted s.moves }) ∧
    (s.head ≠ 0 → exec (.move true) s = .next { s with head := s.head - 1, moves := s.counted s.moves }) ∧
    (s.head = s.tape.length - 1 → s.hasRoom → exec (.move false) s =
      .next { s with tape := s.tape ++ [s.cfg.growFill], head := s.head + 1, moves := s.counted s.moves }) ∧
    (s.head ≠ s.tape.length - 1 →
      exec (.move false) s = .next { s with head := s.head + 1, moves := s.counted s.moves }) ∧
    (∀ left, s.growing left → s.cfg.tapeCapacity = some s.tape.length →
      exec (.move left) s = .fault .tapeExhausted)) ∧
  (∀ (left : Bool) (w : Word) (u : Nat), u < 4096 → w.toNat = 0b101 * 8192 + left.toNat * 4096 + u →
    decode Config.default w = .move left)

/-- R175's closing sentence and R37: the head stays on the tape, no cell is lost or changed, and the tape grows by one cell
exactly at the edge moved toward. -/
def Obligations.MoveKeepsEveryCell : Prop :=
  ∀ (s t : State) (left : Bool), s.head < s.tape.length → exec (.move left) s = .next t →
    t.head < t.tape.length ∧
    (t.tape.length = s.tape.length + 1 ↔ s.growing left) ∧
    (¬ s.growing left → t.tape = s.tape) ∧
    (∀ j c, s.tape[j]? = some c → t.tape[if left = true ∧ s.head = 0 then j + 1 else j]? = some c)

/-- R176, which the spec marks as derived from R174 and R175: the corner cases of MOVE, where the tape may grow. -/
def Obligations.MoveCornerCases : Prop :=
  (∀ (s : State) (left : Bool), s.tape.length = 1 → s.head = 0 → s.hasRoom →
    ∃ t, exec (.move left) s = .next t ∧ t.tape.length = 2) ∧
  (∀ (s t : State) (left : Bool), exec (.move left) s = .next t → t.moves = s.counted s.moves) ∧
  (∀ s : State, s.head = 0 → s.head < s.tape.length → s.hasRoom →
    ∃ t, exec (.move true) s = .next t ∧ t.head = s.head ∧ t.tape[t.head]? = some s.cfg.growFill ∧
      ∀ j, t.tape[j + 1]? = s.tape[j]?) ∧
  (∀ s : State, s.head < s.tape.length → s.hasRoom →
    ∃ t, execAll [.move false, .move true] s = .next t ∧ t.head = s.head ∧
      (s.growing false → t.tape = s.tape ++ [s.cfg.growFill]) ∧ (¬ s.growing false → t.tape = s.tape))

/-- R190: END sets the status and nothing else; at the step, `pc` keeps the incremented value and the step is counted. -/
def Obligations.EndSetsTheStatus : Prop :=
  (∀ (halt : Bool) (s : State),
    exec (.endRun halt) s = .next { s with status := if halt then .halted else .failed }) ∧
  (∀ (halt : Bool) (s : State) (w : Word), s.enabled → s.fetches w → decode s.cfg w = .endRun halt →
    step s = .next { s.afterFetch w with status := if halt then .halted else .failed }) ∧
  (∀ (halt : Bool) (w : Word) (u : Nat), u < 4096 → w.toNat = 0b110 * 8192 + halt.toNat * 4096 + u →
    decode Config.default w = .endRun halt)

/-- R117: NOP's step is the fetch, the increment and the count, for every word with the unassigned opcode value. -/
def Obligations.NopOnlyPassesTheStep : Prop :=
  (∀ s : State, exec .nop s = .next s) ∧
  (∀ (s : State) (w : Word) (v : BitVec 3), s.enabled → s.fetches w → (∀ o, s.cfg.opcodeMap.value o ≠ v) →
    w.toNat / 8192 = v.toNat → step s = .next (s.afterFetch w)) ∧
  (∀ (w : Word) (u : Nat), u < 8192 → w.toNat = 0b111 * 8192 + u → decode Config.default w = .nop) ∧
  (∀ (s : State) (w : Word), s.pc.toNat % 4096 = 4095 → (s.afterFetch w).pc.toNat % 4096 = 0)

/-- R170: no other instruction changes the tape or the head; DRAW and MOVE neither read nor write the flag or the registry. -/
def Obligations.OnlyDrawAndMoveTouchTheTape : Prop :=
  (∀ (i : Instr) (s t : State), exec i s = .next t → (∀ letter blank, i ≠ .draw letter blank) →
    (∀ left, i ≠ .move left) → t.tape = s.tape ∧ t.head = s.head) ∧
  (∀ (i : Instr) (s : State) (v : Bool) (a : BitVec 256),
    ((∃ letter blank, i = .draw letter blank) ∨ ∃ left, i = .move left) →
    exec i { s with eq := v, alpha := a } = mapNext (fun t => { t with eq := v, alpha := a }) (exec i s) ∧
    ∀ t, exec i s = .next t → t.eq = s.eq ∧ t.alpha = s.alpha)

/-- The frame of the instructions that store nothing (ALPHA, CMP, BRAC, BRA, END, NOP): what each leaves unchanged. -/
def Obligations.FrameOfTheInstructionsThatStoreNothing : Prop :=
  ∀ (i : Instr) (s t : State), exec i s = .next t → (∀ letter blank, i ≠ .draw letter blank) → (∀ left, i ≠ .move left) →
    (∀ a, t.imem.read a = s.imem.read a) ∧ (∀ j : Nat, t.tape[j]? = s.tape[j]?) ∧ t.head = s.head ∧ t.moves = s.moves ∧
    t.cfg = s.cfg ∧ t.ir = s.ir ∧ t.steps = s.steps ∧ t.fault = s.fault ∧
    ((∀ letter, i ≠ .alpha letter) → t.alpha = s.alpha) ∧
    ((∀ letter blank oring, i ≠ .cmp letter blank oring) → t.eq = s.eq) ∧
    ((∀ letter blank oring, i ≠ .cmp letter blank oring) → (∀ halt, i ≠ .endRun halt) → t.status = s.status) ∧
    ((∀ a, i ≠ .bra a) → (∀ a e, i ≠ .brac a e) → t.pc = s.pc)

/-- The frame of DRAW and MOVE: every register but the tape's own and MOVE's counter, and all instruction memory, is
unchanged; DRAW stores at the head alone. -/
def Obligations.FrameOfDrawAndMove : Prop :=
  ∀ (i : Instr) (s t : State), exec i s = .next t → ((∃ letter blank, i = .draw letter blank) ∨ ∃ left, i = .move left) →
    (∀ a, t.imem.read a = s.imem.read a) ∧ t.cfg = s.cfg ∧ t.pc = s.pc ∧ t.ir = s.ir ∧ t.eq = s.eq ∧
    t.status = s.status ∧ t.steps = s.steps ∧ t.alpha = s.alpha ∧ t.fault = s.fault ∧
    ((∃ letter blank, i = .draw letter blank) →
      t.head = s.head ∧ t.moves = s.moves ∧ ∀ j, j ≠ s.head → t.tape[j]? = s.tape[j]?)

/-- R243, which the spec marks as derived from R242 and R64: each instruction sees what the one before it wrote, whatever
the operands of both. -/
def Obligations.NoHazardBetweenInstructions : Prop :=
  (∀ (s : State) (c : Cell) (letter : Symbol) (blank oring e : Bool) (addr : Addr), s.tape[s.head]? = some c →
    s.validCell c → ∃ t, execAll [.cmp letter blank oring, .brac addr e] s = .next t ∧
      t.pc = if (oring && s.eq || matchValue c letter blank) = e then BitVec.ofNat 16 addr.toNat else s.pc) ∧
  (∀ (s : State) (x letter : Symbol) (drawBlank blank oring : Bool), s.head < s.tape.length →
    ∃ t, execAll [.draw x drawBlank, .cmp letter blank oring] s = .next t ∧
      s.comparedIn t (s.validCell (if drawBlank then .blank else .symbol x)) (if drawBlank then .blank else .symbol x)
        letter blank oring) ∧
  (∀ (s : State) (left : Bool) (letter : Symbol) (blank oring : Bool), s.head < s.tape.length → s.growing left →
    s.hasRoom → ∃ t, execAll [.move left, .cmp letter blank oring] s = .next t ∧
      s.comparedIn t (s.validCell s.cfg.growFill) s.cfg.growFill letter blank oring) ∧
  (∀ (s : State) (left : Bool) (c : Cell) (letter : Symbol) (blank oring : Bool), s.head < s.tape.length →
    ¬ s.growing left → s.tape[if left then s.head - 1 else s.head + 1]? = some c →
    ∃ t, execAll [.move left, .cmp letter blank oring] s = .next t ∧
      s.comparedIn t (s.validCell c) c letter blank oring) ∧
  (∀ (s : State) (c : Cell) (x letter : Symbol) (blank oring : Bool), s.tape[s.head]? = some c →
    ∃ t, execAll [.alpha x, .cmp letter blank oring] s = .next t ∧
      s.comparedIn t (∀ y, c = .symbol y → y = x ∨ s.alpha.getLsbD y.toNat = true) c letter blank oring)

/-! ### The whole machine -/

/-- R53: instruction memory is read-only during a run and, in a session, only a load changes it. That no step writes the
parameters either is the model's choice, log entry 1. -/
def Obligations.InstructionMemoryIsReadOnly : Prop :=
  (∀ (k : Nat) (s t : State), runSteps k s = .next t → t.imem = s.imem ∧ t.cfg = s.cfg) ∧
  (∀ (h : Session) (mv : HostMove), (∀ f, mv ≠ .load f) → (hostMove h mv).1.image = h.image) ∧
  (∀ h : Session, (coreMove h).1.image = h.image)

/-- R25, which the spec marks as derived from R20, R112, R151 and R157: `pc[15:12]` is 0 at every point of a run. -/
def Obligations.PcTopBitsAreZeroThroughoutARun : Prop :=
  ∀ (cfg : Config) (m : Memory) (tape : List Cell) (k : Nat) (t : State),
    runSteps k (startRun cfg m tape) = .next t → t.pc.toNat / 4096 = 0

/-- R36: the head is a valid index into the tape at every point of a run, and starts at the first character. -/
def Obligations.HeadIsOnTheTapeThroughoutARun : Prop :=
  ∀ (cfg : Config) (m : Memory) (line : List Byte),
    (startRun cfg m (tapeOfLine line)).head = 0 ∧
    ∀ (k : Nat) (t : State), runSteps k (startRun cfg m (tapeOfLine line)) = .next t → t.head < t.tape.length

/-- The reset state is legal (its tape and its empty image are the choice of log entry 5). -/
def Obligations.ResetIsLegal : Prop := State.reset.Legal

/-- Every run the host can start begins in a legal state. -/
def Obligations.RunStartIsLegal : Prop :=
  ∀ (cfg : Config) (f : ImageFile) (m : Memory) (line : List Byte), cfg.wellFormed → load f = .ok m →
    (startRun cfg m (tapeOfLine line)).Legal

/-- Every step keeps a state legal (a terminal state's step answers that state, log entry 2). -/
def Obligations.StepKeepsLegal : Prop :=
  ∀ s t : State, s.Legal → step s = .next t → t.Legal

/-- A legal state without a fault mark always has a next state: no instruction is refused in it, so "Never fails" (R57,
R58, R175) holds of every tape access of a run. (That a terminal state answers itself is log entry 2.) -/
def Obligations.LegalStateAlwaysSteps : Prop :=
  ∀ s : State, s.Legal → s.fault = none → ∃ t, step s = .next t

/-- With an unbounded tape and a word behind every fetch, no run from a legal state ever raises a model fault. (A run goes on past
its terminal state as log entry 2 says.) -/
def Obligations.UnboundedFullyLoadedRunsAreSafe : Prop :=
  ∀ s : State, s.Legal → s.fault = none → s.cfg.tapeCapacity = none → s.fetchable → s.SafeRun

/-- What makes a run safe is kept by every step: a legal state without a fault, with an unbounded tape and a word behind every
fetch, steps to such a state. (That a terminal state answers itself is log entry 2.) -/
def Obligations.StepKeepsASafeState : Prop :=
  ∀ s : State, s.Legal → s.fault = none → s.cfg.tapeCapacity = none → s.fetchable →
    ∃ t, step s = .next t ∧ t.Legal ∧ t.fault = none ∧ t.cfg.tapeCapacity = none ∧ t.fetchable

/-- R31's second clause, with R26 and R27: what no rule reads never influences a run. Two states that differ only in the
counters, their width and `ir` answer alike for any number of steps. -/
def Obligations.CountersAndIrAreNeverRead : Prop :=
  ∀ (k : Nat) (s s' : State), s.forgetUnread = s'.forgetUnread →
    mapNext State.forgetUnread (runSteps k s) = mapNext State.forgetUnread (runSteps k s')
end

