-- ==== Sys2Proof/Laws/Encoding.lean ====
section
/-! SUPPORT. The opcode map's inverse, and the fields of an assembled word. -/

namespace Sys2Proof

theorem Opcode.mem_all (o : Opcode) : o ∈ Opcode.all := by cases o <;> decide

/-- An injective map is undone by `opcodeOf` (R92). -/
theorem OpcodeMap.opcodeOf_value {m : OpcodeMap} (h : m.wellFormed) (o : Opcode) : m.opcodeOf (m.value o) = some o := by
  cases hf : m.opcodeOf (m.value o) with
  | none => simpa using (List.find?_eq_none.mp hf) o o.mem_all
  | some p =>
    have hv : m.value p = m.value o := by simpa using List.find?_some hf
    rw [List.inj_on_of_nodup_map h p.mem_all o.mem_all hv]

theorem OpcodeMap.value_of_opcodeOf {m : OpcodeMap} {v : BitVec 3} {o : Opcode} (h : m.opcodeOf v = some o) :
    m.value o = v := by simpa using List.find?_some h

/-- Seven values never fill the eight: the map leaves one unassigned. -/
theorem OpcodeMap.exists_unassigned (m : OpcodeMap) : ∃ v, m.opcodeOf v = none := by
  by_contra hall
  have hmem : ∀ v : BitVec 3, v ∈ Opcode.all.map m.value := by
    intro v
    cases hv : m.opcodeOf v with
    | none => exact absurd ⟨v, hv⟩ hall
    | some o => exact List.mem_map.mpr ⟨o, o.mem_all, m.value_of_opcodeOf hv⟩
  have hsub : (List.range 8).map (BitVec.ofNat 3) ⊆ Opcode.all.map m.value := fun v _ => hmem v
  have hnd : ((List.range 8).map (BitVec.ofNat 3)).Nodup := by decide
  have hle := (hnd.subperm hsub).length_le
  simp [Opcode.all] at hle

/-- NOP's value is one the map gives no opcode (R92). -/
theorem OpcodeMap.opcodeOf_unassigned (m : OpcodeMap) : m.opcodeOf m.unassigned = none := by
  unfold OpcodeMap.unassigned
  cases hf : ((List.range 8).map (BitVec.ofNat 3)).find? (fun v => (m.opcodeOf v).isNone) with
  | some v => simpa using List.find?_some hf
  | none =>
    obtain ⟨v, hv⟩ := m.exists_unassigned
    have hall : ∀ v : BitVec 3, v ∈ (List.range 8).map (BitVec.ofNat 3) := by decide
    have := List.find?_eq_none.mp hf v (hall v)
    simp [hv] at this

/-- The bits of a placed field. -/
@[simp] theorem getLsbD_fieldAt {n : Nat} (lo : Nat) (v : BitVec n) (i : Nat) :
    (fieldAt lo v).getLsbD i = (decide (i < 16) && decide (lo ≤ i) && v.getLsbD (i - lo)) := by
  rw [fieldAt, BitVec.getLsbD_shiftLeft, BitVec.getLsbD_setWidth]
  by_cases h1 : i < 16
  · by_cases h2 : i < lo
    · simp [h2, Nat.not_le.mpr h2]
    · have h3 : i - lo < 16 := by omega
      simp [h1, h2, h3, Nat.not_lt.mp h2]
  · simp [h1]

@[simp] theorem getElem_fieldAt {n : Nat} (lo : Nat) (v : BitVec n) (i : Nat) (h : i < 16) :
    (fieldAt lo v)[i] = (decide (lo ≤ i) && v.getLsbD (i - lo)) := by
  rw [← BitVec.getLsbD_eq_getElem, getLsbD_fieldAt]
  simp [h]

@[simp] theorem getLsbD_bitAt (lo : Nat) (b : Bool) (i : Nat) :
    (bitAt lo b).getLsbD i = (decide (i < 16) && decide (i = lo) && b) := by
  rw [bitAt, getLsbD_fieldAt, BitVec.getLsbD_ofBool]
  by_cases h : i = lo
  · simp [h]
  · by_cases h2 : lo ≤ i
    · simp [h, show i - lo ≠ 0 by omega]
    · simp [h, h2]

@[simp] theorem getElem_bitAt (lo : Nat) (b : Bool) (i : Nat) (h : i < 16) :
    (bitAt lo b)[i] = (decide (i = lo) && b) := by
  rw [← BitVec.getLsbD_eq_getElem, getLsbD_bitAt]
  simp [h]

/-- The bits of a word that hold fields (12..0) are 0 above. -/
theorem getLsbD_fieldBits_high (p : FieldPacking) (i : Instr) {n : Nat} (h : 13 ≤ n) :
    (i.fieldBits p).getLsbD n = false := by
  cases p <;> cases i <;>
    simp (disch := omega) [Instr.fieldBits, BitVec.getLsbD_of_ge] <;> omega

theorem opcodeField_encode (cfg : Config) (i : Instr) : opcodeField (encode cfg i) = i.opcodeValue cfg.opcodeMap := by
  apply BitVec.eq_of_getLsbD_eq
  intro n hn
  have h := getLsbD_fieldBits_high cfg.fieldPacking i (n := 13 + n) (by omega)
  have hn' : 13 + n < 16 := by omega
  rw [opcodeField, BitVec.getLsbD_extractLsb', encode, BitVec.getLsbD_or, h, getLsbD_fieldAt]
  simp [hn, hn']

/-- The opcode an instruction's value stands for; `none` is NOP. -/
def Instr.opcode : Instr → Option Opcode
  | .alpha _ => some .alpha
  | .cmp _ _ _ => some .cmp
  | .brac _ _ => some .brac
  | .bra _ => some .bra
  | .draw _ _ => some .draw
  | .move _ => some .move
  | .endRun _ => some .endRun
  | .nop => none

theorem opcodeOf_encode {cfg : Config} (h : cfg.wellFormed) (i : Instr) :
    cfg.opcodeMap.opcodeOf (opcodeField (encode cfg i)) = i.opcode := by
  rw [opcodeField_encode]
  cases i with
  | nop => exact cfg.opcodeMap.opcodeOf_unassigned
  | alpha _ => exact OpcodeMap.opcodeOf_value h .alpha
  | cmp _ _ _ => exact OpcodeMap.opcodeOf_value h .cmp
  | brac _ _ => exact OpcodeMap.opcodeOf_value h .brac
  | bra _ => exact OpcodeMap.opcodeOf_value h .bra
  | draw _ _ => exact OpcodeMap.opcodeOf_value h .draw
  | move _ => exact OpcodeMap.opcodeOf_value h .move
  | endRun _ => exact OpcodeMap.opcodeOf_value h .endRun

end Sys2Proof
end

