-- ==== Sys2Proof/Laws/Memory.lean ====
section
/-! SUPPORT. Instruction memory: read after write, and the canonical form every operation keeps. -/

namespace Sys2Proof.Machine

@[simp] theorem Memory.read_nil (a : Nat) : Memory.read [] a = none := rfl

theorem Memory.read_cons (b : Nat) (v : Word) (m : Memory) (a : Nat) :
    Memory.read ((b, v) :: m) a = if a = b then some v else Memory.read m a := rfl

/-- An address below every listed one is not loaded. -/
theorem Memory.read_below {m : Memory} {a : Nat} (h : ∀ c ∈ m, a < c.1) : m.read a = none := by
  induction m with
  | nil => rfl
  | cons c m ih =>
    have hc : a < c.1 := h c (by simp)
    rw [Memory.read_cons, if_neg (by omega)]
    exact ih fun d hd => h d (by simp [hd])

@[simp] theorem Memory.read_write_same (m : Memory) (a : Nat) (w : Word) : (m.write a w).read a = some w := by
  induction m with
  | nil => simp [Memory.write, Memory.read]
  | cons c m ih =>
    unfold Memory.write
    split
    · simp [Memory.read]
    · split
      · simp [Memory.read]
      · rw [Memory.read_cons, if_neg ‹_›]
        exact ih

theorem Memory.read_write_other (m : Memory) {a b : Nat} (w : Word) (h : b ≠ a) :
    (m.write a w).read b = m.read b := by
  induction m with
  | nil => simp [Memory.write, Memory.read, h]
  | cons c m ih =>
    unfold Memory.write
    split
    · rw [Memory.read_cons, if_neg h]
    · split
      · subst_vars
        simp [Memory.read, h]
      · rw [Memory.read_cons, Memory.read_cons, ih]

/-- The addresses listed after a write are those before and the one written. -/
theorem Memory.mem_write {m : Memory} {a : Nat} {w : Word} {c : Nat × Word} (h : c ∈ m.write a w) :
    c = (a, w) ∨ c ∈ m := by
  induction m with
  | nil => simpa [Memory.write] using h
  | cons d m ih =>
    unfold Memory.write at h
    split at h
    · simpa using h
    · split at h
      · rcases List.mem_cons.mp h with h | h
        · exact .inl h
        · exact .inr (List.mem_cons_of_mem _ h)
      · rcases List.mem_cons.mp h with h | h
        · exact .inr (by simp [h])
        · rcases ih h with h | h
          · exact .inl h
          · exact .inr (List.mem_cons_of_mem _ h)

/-- The form in the shape inductions use. -/
theorem Memory.wf_cons {c : Nat × Word} {m : Memory} :
    Memory.wf (c :: m) ↔ (∀ d ∈ m, c.1 < d.1) ∧ c.1 < 4096 ∧ m.wf := by
  simp only [Memory.wf, List.map_cons, List.pairwise_cons, List.mem_cons, List.mem_map, forall_eq_or_imp]
  constructor
  · rintro ⟨⟨h1, h2⟩, h3, h4⟩
    exact ⟨fun d hd => h1 _ ⟨d, hd, rfl⟩, h3, h2, h4⟩
  · rintro ⟨h1, h3, h2, h4⟩
    exact ⟨⟨by rintro a ⟨d, hd, rfl⟩; exact h1 d hd, h2⟩, h3, h4⟩

theorem Memory.wf_write {m : Memory} {a : Nat} (w : Word) (hm : m.wf) (ha : a < 4096) : (m.write a w).wf := by
  induction m with
  | nil => simp [Memory.write, Memory.wf, ha]
  | cons c m ih =>
    obtain ⟨h1, h2, h3⟩ := Memory.wf_cons.mp hm
    unfold Memory.write
    split
    · refine Memory.wf_cons.mpr ⟨fun d hd => ?_, ha, hm⟩
      rcases List.mem_cons.mp hd with rfl | hd
      · assumption
      · exact lt_trans ‹_› (h1 d hd)
    · split
      · subst_vars
        exact Memory.wf_cons.mpr ⟨h1, h2, h3⟩
      · refine Memory.wf_cons.mpr ⟨fun d hd => ?_, h2, ih h3⟩
        rcases Memory.mem_write hd with rfl | hd
        · change c.1 < a
          omega
        · exact h1 d hd

@[simp] theorem Memory.wf_reset : State.reset.imem.wf := by decide

theorem Memory.length_ofWordsFrom (a : Nat) (ws : List Word) : (Memory.ofWordsFrom a ws).length = ws.length := by
  induction ws generalizing a with
  | nil => rfl
  | cons w ws ih => simp [Memory.ofWordsFrom, ih]

/-- Consecutive words lie at their own addresses, and nothing else is loaded. -/
theorem Memory.read_ofWordsFrom (a : Nat) (ws : List Word) (b : Nat) :
    (Memory.ofWordsFrom a ws).read b = if b < a then none else ws[b - a]? := by
  induction ws generalizing a with
  | nil => simp [Memory.ofWordsFrom]
  | cons w ws ih =>
    rw [Memory.ofWordsFrom, Memory.read_cons, ih]
    rcases Nat.lt_trichotomy b a with h | rfl | h
    · rw [if_neg (by omega), if_pos (by omega), if_pos h]
    · simp
    · obtain ⟨n, rfl⟩ := Nat.exists_eq_add_of_lt h
      rw [if_neg (by omega), if_neg (by omega), if_neg (by omega)]
      rw [show a + n + 1 - a = n + 1 by omega, show a + n + 1 - (a + 1) = n by omega]
      simp

theorem Memory.wf_ofWordsFrom {a : Nat} {ws : List Word} (h : a + ws.length ≤ 4096) :
    (Memory.ofWordsFrom a ws).wf ∧ ∀ c ∈ Memory.ofWordsFrom a ws, a ≤ c.1 := by
  induction ws generalizing a with
  | nil => simp [Memory.ofWordsFrom, Memory.wf]
  | cons w ws ih =>
    simp only [List.length_cons] at h
    obtain ⟨h1, h2⟩ := ih (a := a + 1) (by omega)
    refine ⟨Memory.wf_cons.mpr ⟨fun d hd => h2 d hd, by show a < 4096; omega, h1⟩, ?_⟩
    intro c hc
    rcases List.mem_cons.mp hc with rfl | hc
    · exact le_refl _
    · exact le_of_lt (h2 c hc)

theorem length_wordsOfBytes (b : List Byte) : (wordsOfBytes b).length = b.length / 2 := by
  induction b using wordsOfBytes.induct with
  | case1 lo hi rest ih => simp [wordsOfBytes, ih]; omega
  | case2 b h =>
    rw [wordsOfBytes.eq_2 b h]
    match b with
    | [] => rfl
    | [_] => simp
    | lo :: hi :: rest => exact absurd rfl (h lo hi rest)

/-- What `load` gives, once: the words of an even file of at most 8192 bytes. -/
theorem load_ok {f : ImageFile} {m : Memory} (h : load f = .ok m) :
    ∃ b, f = .bytes b ∧ b.length ≤ 8192 ∧ b.length % 2 = 0 ∧ m = Memory.ofWords (wordsOfBytes b) := by
  cases f with
  | missing => cases h
  | unreadable => cases h
  | bytes b =>
    simp only [load] at h
    split at h
    · cases h
    · split at h
      · cases h
      · cases h
        exact ⟨b, rfl, by omega, by omega, rfl⟩

/-- A loaded image is in the canonical form. -/
theorem Memory.wf_load {f : ImageFile} {m : Memory} (h : load f = .ok m) : m.wf := by
  obtain ⟨b, -, h1, -, rfl⟩ := load_ok h
  exact (Memory.wf_ofWordsFrom (by have := length_wordsOfBytes b; omega)).1

end Sys2Proof.Machine
end

