-- ==== Sys2Proof/Laws/State.lean ====
section
/-! SUPPORT. One lemma per field per named update of Machine/Ops.lean, so that no later proof unfolds a record update. -/

namespace Sys2Proof.Machine

@[simp] theorem State.fetched_cfg (s : State) (w : Word) : (s.fetched w).cfg = s.cfg := rfl
@[simp] theorem State.fetched_imem (s : State) (w : Word) : (s.fetched w).imem = s.imem := rfl
@[simp] theorem State.fetched_pc (s : State) (w : Word) : (s.fetched w).pc = nextPc s.pc := rfl
@[simp] theorem State.fetched_ir (s : State) (w : Word) : (s.fetched w).ir = some w := rfl
@[simp] theorem State.fetched_eq (s : State) (w : Word) : (s.fetched w).eq = s.eq := rfl
@[simp] theorem State.fetched_status (s : State) (w : Word) : (s.fetched w).status = s.status := rfl
@[simp] theorem State.fetched_steps (s : State) (w : Word) : (s.fetched w).steps = countUp s.cfg.counterWidth s.steps := rfl
@[simp] theorem State.fetched_moves (s : State) (w : Word) : (s.fetched w).moves = s.moves := rfl
@[simp] theorem State.fetched_alpha (s : State) (w : Word) : (s.fetched w).alpha = s.alpha := rfl
@[simp] theorem State.fetched_tape (s : State) (w : Word) : (s.fetched w).tape = s.tape := rfl
@[simp] theorem State.fetched_head (s : State) (w : Word) : (s.fetched w).head = s.head := rfl
@[simp] theorem State.fetched_fault (s : State) (w : Word) : (s.fetched w).fault = s.fault := rfl

@[simp] theorem State.jump_cfg (s : State) (a : Addr) : (s.jump a).cfg = s.cfg := rfl
@[simp] theorem State.jump_imem (s : State) (a : Addr) : (s.jump a).imem = s.imem := rfl
@[simp] theorem State.jump_pc (s : State) (a : Addr) : (s.jump a).pc = addrToPc a := rfl
@[simp] theorem State.jump_ir (s : State) (a : Addr) : (s.jump a).ir = s.ir := rfl
@[simp] theorem State.jump_eq (s : State) (a : Addr) : (s.jump a).eq = s.eq := rfl
@[simp] theorem State.jump_status (s : State) (a : Addr) : (s.jump a).status = s.status := rfl
@[simp] theorem State.jump_steps (s : State) (a : Addr) : (s.jump a).steps = s.steps := rfl
@[simp] theorem State.jump_moves (s : State) (a : Addr) : (s.jump a).moves = s.moves := rfl
@[simp] theorem State.jump_alpha (s : State) (a : Addr) : (s.jump a).alpha = s.alpha := rfl
@[simp] theorem State.jump_tape (s : State) (a : Addr) : (s.jump a).tape = s.tape := rfl
@[simp] theorem State.jump_head (s : State) (a : Addr) : (s.jump a).head = s.head := rfl
@[simp] theorem State.jump_fault (s : State) (a : Addr) : (s.jump a).fault = s.fault := rfl

@[simp] theorem State.setEq_cfg (s : State) (v : Bool) : (s.setEq v).cfg = s.cfg := rfl
@[simp] theorem State.setEq_imem (s : State) (v : Bool) : (s.setEq v).imem = s.imem := rfl
@[simp] theorem State.setEq_pc (s : State) (v : Bool) : (s.setEq v).pc = s.pc := rfl
@[simp] theorem State.setEq_ir (s : State) (v : Bool) : (s.setEq v).ir = s.ir := rfl
@[simp] theorem State.setEq_eq (s : State) (v : Bool) : (s.setEq v).eq = v := rfl
@[simp] theorem State.setEq_status (s : State) (v : Bool) : (s.setEq v).status = s.status := rfl
@[simp] theorem State.setEq_steps (s : State) (v : Bool) : (s.setEq v).steps = s.steps := rfl
@[simp] theorem State.setEq_moves (s : State) (v : Bool) : (s.setEq v).moves = s.moves := rfl
@[simp] theorem State.setEq_alpha (s : State) (v : Bool) : (s.setEq v).alpha = s.alpha := rfl
@[simp] theorem State.setEq_tape (s : State) (v : Bool) : (s.setEq v).tape = s.tape := rfl
@[simp] theorem State.setEq_head (s : State) (v : Bool) : (s.setEq v).head = s.head := rfl
@[simp] theorem State.setEq_fault (s : State) (v : Bool) : (s.setEq v).fault = s.fault := rfl

@[simp] theorem State.declare_cfg (s : State) (x : Symbol) : (s.declare x).cfg = s.cfg := rfl
@[simp] theorem State.declare_imem (s : State) (x : Symbol) : (s.declare x).imem = s.imem := rfl
@[simp] theorem State.declare_pc (s : State) (x : Symbol) : (s.declare x).pc = s.pc := rfl
@[simp] theorem State.declare_ir (s : State) (x : Symbol) : (s.declare x).ir = s.ir := rfl
@[simp] theorem State.declare_eq (s : State) (x : Symbol) : (s.declare x).eq = s.eq := rfl
@[simp] theorem State.declare_status (s : State) (x : Symbol) : (s.declare x).status = s.status := rfl
@[simp] theorem State.declare_steps (s : State) (x : Symbol) : (s.declare x).steps = s.steps := rfl
@[simp] theorem State.declare_moves (s : State) (x : Symbol) : (s.declare x).moves = s.moves := rfl
@[simp] theorem State.declare_alpha (s : State) (x : Symbol) : (s.declare x).alpha = s.alpha ||| BitVec.twoPow 256 x.toNat := rfl
@[simp] theorem State.declare_tape (s : State) (x : Symbol) : (s.declare x).tape = s.tape := rfl
@[simp] theorem State.declare_head (s : State) (x : Symbol) : (s.declare x).head = s.head := rfl
@[simp] theorem State.declare_fault (s : State) (x : Symbol) : (s.declare x).fault = s.fault := rfl

@[simp] theorem State.countMove_cfg (s : State) : (s.countMove).cfg = s.cfg := rfl
@[simp] theorem State.countMove_imem (s : State) : (s.countMove).imem = s.imem := rfl
@[simp] theorem State.countMove_pc (s : State) : (s.countMove).pc = s.pc := rfl
@[simp] theorem State.countMove_ir (s : State) : (s.countMove).ir = s.ir := rfl
@[simp] theorem State.countMove_eq (s : State) : (s.countMove).eq = s.eq := rfl
@[simp] theorem State.countMove_status (s : State) : (s.countMove).status = s.status := rfl
@[simp] theorem State.countMove_steps (s : State) : (s.countMove).steps = s.steps := rfl
@[simp] theorem State.countMove_moves (s : State) : (s.countMove).moves = countUp s.cfg.counterWidth s.moves := rfl
@[simp] theorem State.countMove_alpha (s : State) : (s.countMove).alpha = s.alpha := rfl
@[simp] theorem State.countMove_tape (s : State) : (s.countMove).tape = s.tape := rfl
@[simp] theorem State.countMove_head (s : State) : (s.countMove).head = s.head := rfl
@[simp] theorem State.countMove_fault (s : State) : (s.countMove).fault = s.fault := rfl

@[simp] theorem State.tapeWrite_cfg (s : State) (c : Cell) : (s.tapeWrite c).cfg = s.cfg := rfl
@[simp] theorem State.tapeWrite_imem (s : State) (c : Cell) : (s.tapeWrite c).imem = s.imem := rfl
@[simp] theorem State.tapeWrite_pc (s : State) (c : Cell) : (s.tapeWrite c).pc = s.pc := rfl
@[simp] theorem State.tapeWrite_ir (s : State) (c : Cell) : (s.tapeWrite c).ir = s.ir := rfl
@[simp] theorem State.tapeWrite_eq (s : State) (c : Cell) : (s.tapeWrite c).eq = s.eq := rfl
@[simp] theorem State.tapeWrite_status (s : State) (c : Cell) : (s.tapeWrite c).status = s.status := rfl
@[simp] theorem State.tapeWrite_steps (s : State) (c : Cell) : (s.tapeWrite c).steps = s.steps := rfl
@[simp] theorem State.tapeWrite_moves (s : State) (c : Cell) : (s.tapeWrite c).moves = s.moves := rfl
@[simp] theorem State.tapeWrite_alpha (s : State) (c : Cell) : (s.tapeWrite c).alpha = s.alpha := rfl
@[simp] theorem State.tapeWrite_tape (s : State) (c : Cell) : (s.tapeWrite c).tape = s.tape.set s.head c := rfl
@[simp] theorem State.tapeWrite_head (s : State) (c : Cell) : (s.tapeWrite c).head = s.head := rfl
@[simp] theorem State.tapeWrite_fault (s : State) (c : Cell) : (s.tapeWrite c).fault = s.fault := rfl

@[simp] theorem State.halt_cfg (s : State) (x : Status) : (s.halt x).cfg = s.cfg := rfl
@[simp] theorem State.halt_imem (s : State) (x : Status) : (s.halt x).imem = s.imem := rfl
@[simp] theorem State.halt_pc (s : State) (x : Status) : (s.halt x).pc = s.pc := rfl
@[simp] theorem State.halt_ir (s : State) (x : Status) : (s.halt x).ir = s.ir := rfl
@[simp] theorem State.halt_eq (s : State) (x : Status) : (s.halt x).eq = s.eq := rfl
@[simp] theorem State.halt_status (s : State) (x : Status) : (s.halt x).status = x := rfl
@[simp] theorem State.halt_steps (s : State) (x : Status) : (s.halt x).steps = s.steps := rfl
@[simp] theorem State.halt_moves (s : State) (x : Status) : (s.halt x).moves = s.moves := rfl
@[simp] theorem State.halt_alpha (s : State) (x : Status) : (s.halt x).alpha = s.alpha := rfl
@[simp] theorem State.halt_tape (s : State) (x : Status) : (s.halt x).tape = s.tape := rfl
@[simp] theorem State.halt_head (s : State) (x : Status) : (s.halt x).head = s.head := rfl
@[simp] theorem State.halt_fault (s : State) (x : Status) : (s.halt x).fault = s.fault := rfl

@[simp] theorem State.raise_cfg (s : State) (r : Fault) : (s.raise r).cfg = s.cfg := rfl
@[simp] theorem State.raise_imem (s : State) (r : Fault) : (s.raise r).imem = s.imem := rfl
@[simp] theorem State.raise_pc (s : State) (r : Fault) : (s.raise r).pc = s.pc := rfl
@[simp] theorem State.raise_ir (s : State) (r : Fault) : (s.raise r).ir = s.ir := rfl
@[simp] theorem State.raise_eq (s : State) (r : Fault) : (s.raise r).eq = s.eq := rfl
@[simp] theorem State.raise_status (s : State) (r : Fault) : (s.raise r).status = s.status := rfl
@[simp] theorem State.raise_steps (s : State) (r : Fault) : (s.raise r).steps = s.steps := rfl
@[simp] theorem State.raise_moves (s : State) (r : Fault) : (s.raise r).moves = s.moves := rfl
@[simp] theorem State.raise_alpha (s : State) (r : Fault) : (s.raise r).alpha = s.alpha := rfl
@[simp] theorem State.raise_tape (s : State) (r : Fault) : (s.raise r).tape = s.tape := rfl
@[simp] theorem State.raise_head (s : State) (r : Fault) : (s.raise r).head = s.head := rfl
@[simp] theorem State.raise_fault (s : State) (r : Fault) : (s.raise r).fault = some r := rfl

@[simp] theorem State.grown_cfg (s : State) (d : Dir) : (s.grown d).cfg = s.cfg := by cases d <;> rfl
@[simp] theorem State.grown_imem (s : State) (d : Dir) : (s.grown d).imem = s.imem := by cases d <;> rfl
@[simp] theorem State.grown_pc (s : State) (d : Dir) : (s.grown d).pc = s.pc := by cases d <;> rfl
@[simp] theorem State.grown_ir (s : State) (d : Dir) : (s.grown d).ir = s.ir := by cases d <;> rfl
@[simp] theorem State.grown_eq (s : State) (d : Dir) : (s.grown d).eq = s.eq := by cases d <;> rfl
@[simp] theorem State.grown_status (s : State) (d : Dir) : (s.grown d).status = s.status := by cases d <;> rfl
@[simp] theorem State.grown_steps (s : State) (d : Dir) : (s.grown d).steps = s.steps := by cases d <;> rfl
@[simp] theorem State.grown_moves (s : State) (d : Dir) : (s.grown d).moves = s.moves := by cases d <;> rfl
@[simp] theorem State.grown_alpha (s : State) (d : Dir) : (s.grown d).alpha = s.alpha := by cases d <;> rfl
@[simp] theorem State.grown_fault (s : State) (d : Dir) : (s.grown d).fault = s.fault := by cases d <;> rfl

@[simp] theorem State.shifted_cfg (s : State) (d : Dir) : (s.shifted d).cfg = s.cfg := by cases d <;> rfl
@[simp] theorem State.shifted_imem (s : State) (d : Dir) : (s.shifted d).imem = s.imem := by cases d <;> rfl
@[simp] theorem State.shifted_pc (s : State) (d : Dir) : (s.shifted d).pc = s.pc := by cases d <;> rfl
@[simp] theorem State.shifted_ir (s : State) (d : Dir) : (s.shifted d).ir = s.ir := by cases d <;> rfl
@[simp] theorem State.shifted_eq (s : State) (d : Dir) : (s.shifted d).eq = s.eq := by cases d <;> rfl
@[simp] theorem State.shifted_status (s : State) (d : Dir) : (s.shifted d).status = s.status := by cases d <;> rfl
@[simp] theorem State.shifted_steps (s : State) (d : Dir) : (s.shifted d).steps = s.steps := by cases d <;> rfl
@[simp] theorem State.shifted_moves (s : State) (d : Dir) : (s.shifted d).moves = s.moves := by cases d <;> rfl
@[simp] theorem State.shifted_alpha (s : State) (d : Dir) : (s.shifted d).alpha = s.alpha := by cases d <;> rfl
@[simp] theorem State.shifted_fault (s : State) (d : Dir) : (s.shifted d).fault = s.fault := by cases d <;> rfl

@[simp] theorem State.grown_left_tape (s : State) : (s.grown .left).tape = s.cfg.growFill :: s.tape := rfl
@[simp] theorem State.grown_left_head (s : State) : (s.grown .left).head = s.head := rfl
@[simp] theorem State.grown_right_tape (s : State) : (s.grown .right).tape = s.tape ++ [s.cfg.growFill] := rfl
@[simp] theorem State.grown_right_head (s : State) : (s.grown .right).head = s.head + 1 := rfl
@[simp] theorem State.shifted_tape (s : State) (d : Dir) : (s.shifted d).tape = s.tape := by cases d <;> rfl
@[simp] theorem State.shifted_left_head (s : State) : (s.shifted .left).head = s.head - 1 := rfl
@[simp] theorem State.shifted_right_head (s : State) : (s.shifted .right).head = s.head + 1 := rfl

/-- Two states are equal when they agree field by field. -/
theorem State.ext_fields {s t : State} (h1 : s.cfg = t.cfg) (h2 : s.imem = t.imem) (h3 : s.pc = t.pc) (h4 : s.ir = t.ir)
    (h5 : s.eq = t.eq) (h6 : s.status = t.status) (h7 : s.steps = t.steps) (h8 : s.moves = t.moves)
    (h9 : s.alpha = t.alpha) (h10 : s.tape = t.tape) (h11 : s.head = t.head) (h12 : s.fault = t.fault) : s = t := by
  cases s
  cases t
  simp_all

end Sys2Proof.Machine
end

