-- ==== Sys2Proof/Laws/Ops.lean ====
section
/-! SUPPORT. One lemma per shared operation of Machine/Ops.lean, Operands.lean and Flags.lean that says once what it does. -/

namespace Sys2Proof.Machine

/-! ### The program counter -/

@[simp] theorem pcAddr_addrToPc (a : Addr) : pcAddr (addrToPc a) = a := by
  apply BitVec.eq_of_toNat_eq
  have := a.isLt
  simp [pcAddr, addrToPc]
  omega

theorem addrToPc_toNat (a : Addr) : (addrToPc a).toNat = a.toNat := by
  have := a.isLt
  simp [addrToPc]
  omega

theorem addrToPc_lt (a : Addr) : (addrToPc a).toNat < 4096 := by
  rw [addrToPc_toNat]
  exact a.isLt

theorem pcAddr_toNat (pc : Word) : (pcAddr pc).toNat = pc.toNat % 4096 := by
  simp [pcAddr]

theorem nextPc_lt (pc : Word) : (nextPc pc).toNat < 4096 := addrToPc_lt _

/-! ### Counters -/

@[simp] theorem countUp_none (n : Nat) : countUp none n = n + 1 := rfl

theorem countUp_lt (k n : Nat) : countUp (some k) n < 2 ^ k := Nat.mod_lt _ (by positivity)

/-! ### The fetch -/

theorem State.fetchWord_loaded {s : State} {w : Word} (h : s.imem.read (pcAddr s.pc).toNat = some w) :
    s.fetchWord = some w := by
  simp [State.fetchWord, h]

theorem State.fetchWord_unloaded {s : State} (h : s.imem.read (pcAddr s.pc).toNat = none) :
    s.fetchWord = unloadedWord s.cfg.imemUnloaded := by
  simp [State.fetchWord, h]

/-! ### The alphabet registry -/

/-- A declaration adds the one symbol. -/
theorem State.declared_declare (s : State) (x y : Symbol) :
    (s.declare x).declared y = (s.declared y || decide (y = x)) := by
  have hy := y.isLt
  simp only [State.declared, State.declare_alpha, BitVec.getLsbD_or, BitVec.getLsbD_twoPow]
  congr 1
  rw [decide_eq_true (show x.toNat < 256 from x.isLt), Bool.true_and]
  exact decide_eq_decide.mpr ⟨fun h => BitVec.eq_of_toNat_eq h.symm, fun h => by rw [h]⟩

/-- Declaring a declared symbol changes nothing (R132). -/
theorem State.declare_of_declared {s : State} {x : Symbol} (h : s.declared x = true) : s.declare x = s := by
  have hx := x.isLt
  have ha : s.alpha ||| BitVec.twoPow 256 x.toNat = s.alpha := by
    apply BitVec.eq_of_getLsbD_eq
    intro i hi
    rw [BitVec.getLsbD_or, BitVec.getLsbD_twoPow]
    by_cases hxi : x.toNat = i
    · have hi' : s.alpha.getLsbD i = true := hxi ▸ h
      rw [hi', Bool.true_or]
    · simp [hxi]
  simp [State.declare, ha]

/-! ### The tape -/

theorem State.tapeRead_of_lt {s : State} (h : s.head < s.tape.length) : ∃ c, s.tapeRead = some c :=
  ⟨s.tape[s.head], by simp [State.tapeRead, h]⟩

theorem State.lt_of_tapeRead {s : State} {c : Cell} (h : s.tapeRead = some c) : s.head < s.tape.length := by
  by_contra hn
  rw [State.tapeRead, List.getElem?_eq_none (by omega)] at h
  cases h

theorem State.tapeRead_congr {s t : State} (h1 : t.tape = s.tape) (h2 : t.head = s.head) :
    t.tapeRead = s.tapeRead := by
  simp [State.tapeRead, h1, h2]

theorem State.tapeWrite_length (s : State) (c : Cell) : (s.tapeWrite c).tape.length = s.tape.length := by simp

/-- The three things a tape move can answer. -/
theorem State.tapeMove_cases (s : State) (d : Dir) :
    (s.atEdge d = true ∧ s.tapeFull = true ∧ s.tapeMove d = .fault .tapeExhausted) ∨
    (s.atEdge d = true ∧ s.tapeFull = false ∧ s.tapeMove d = .next (s.grown d)) ∨
    (s.atEdge d = false ∧ s.tapeMove d = .next (s.shifted d)) := by
  cases h1 : s.atEdge d
  · exact .inr (.inr ⟨rfl, by simp [State.tapeMove, h1]⟩)
  · cases h2 : s.tapeFull
    · exact .inr (.inl ⟨rfl, rfl, by simp [State.tapeMove, h1, h2]⟩)
    · exact .inl ⟨rfl, rfl, by simp [State.tapeMove, h1, h2]⟩

@[simp] theorem State.atEdge_left (s : State) : s.atEdge .left = true ↔ s.head = 0 := by simp [State.atEdge]

@[simp] theorem State.atEdge_right (s : State) : s.atEdge .right = true ↔ s.head + 1 = s.tape.length := by
  simp [State.atEdge]

theorem State.tapeFull_unbounded {s : State} (h : s.cfg.tapeCapacity = none) : s.tapeFull = false := by
  simp [State.tapeFull, h]

theorem State.tapeFull_bounded {s : State} {k : Nat} (h : s.cfg.tapeCapacity = some k) :
    s.tapeFull = true ↔ k ≤ s.tape.length := by
  simp [State.tapeFull, h]

/-- The head stays on the tape through a growth and through a shift (R36, R175). -/
theorem State.head_grown_lt {s : State} {d : Dir} (h : s.head < s.tape.length) :
    (s.grown d).head < (s.grown d).tape.length := by
  cases d
  · simp only [State.grown_left_tape, State.grown_left_head, List.length_cons]
    omega
  · simp only [State.grown_right_tape, State.grown_right_head, List.length_append, List.length_singleton]
    omega

theorem State.head_shifted_lt {s : State} {d : Dir} (h : s.head < s.tape.length) (he : s.atEdge d = false) :
    (s.shifted d).head < (s.shifted d).tape.length := by
  cases d
  · simp only [State.shifted_tape, State.shifted_left_head]
    omega
  · have hn : ¬(s.head + 1 = s.tape.length) := by
      intro hc
      have := (State.atEdge_right s).mpr hc
      simp [he] at this
    simp only [State.shifted_tape, State.shifted_right_head]
    omega

/-! ### Operands and flags -/

@[simp] theorem drawCell_true (letter : Symbol) : drawCell letter true = .blank := rfl
@[simp] theorem drawCell_false (letter : Symbol) : drawCell letter false = .symbol letter := rfl
@[simp] theorem moveDir_true : moveDir true = .left := rfl
@[simp] theorem moveDir_false : moveDir false = .right := rfl
@[simp] theorem endStatus_true : endStatus true = .halted := rfl
@[simp] theorem endStatus_false : endStatus false = .failed := rfl
@[simp] theorem State.valid_blank (s : State) : s.valid .blank = true := rfl
@[simp] theorem State.valid_symbol (s : State) (x : Symbol) : s.valid (.symbol x) = s.declared x := rfl

/-- Only an undeclared symbol is invalid (R130). -/
theorem State.not_valid {s : State} {c : Cell} (h : s.valid c = false) :
    ∃ x, c = .symbol x ∧ s.declared x = false := by
  cases c with
  | blank => cases h
  | symbol x => exact ⟨x, rfl, h⟩

/-! ### Tapes of input lines -/

theorem initialTape_ne_nil (content : List Byte) (terminated : Bool) : initialTape content terminated ≠ [] := by
  intro h
  by_cases hc : content.map Cell.symbol ++ (if terminated then [.blank] else []) = []
  · simp only [initialTape, if_pos hc, reduceCtorEq] at h
  · simp only [initialTape, if_neg hc] at h
    exact hc h

theorem tapeOfLine_length_pos (line : List Byte) : 0 < (tapeOfLine line).length :=
  List.length_pos_of_ne_nil (initialTape_ne_nil _ _)

end Sys2Proof.Machine
end

