-- ==== Sys2Proof/Laws/PerInstr.lean ====
section
/-! SUPPORT. The family CanonicalWord, a statement about every instruction: its word has every unused bit 0 (R96 of
30_encoding.md), under every configuration. -/

namespace Sys2Proof.Laws.CanonicalWord

/-- "sets every unused bit to 0" (R96). -/
def Statement (i : Instr) : Prop := ∀ cfg : Config, cfg.wellFormed → canonical cfg (encode cfg i)

/-- A word is zero under a mask when each of its 16 bits is. -/
theorem and_eq_zero_of_bits {w m : Word} (h : ∀ i < 16, (w.getLsbD i && m.getLsbD i) = false) : w &&& m = 0 := by
  apply BitVec.eq_of_getLsbD_eq
  intro i hi
  simpa using h i hi

theorem alpha (letter : Symbol) : Statement (.alpha letter) := by
  intro cfg h
  cases hp : cfg.fieldPacking <;>
    simp only [canonical, unusedMask, opcodeOf_encode h, Instr.opcode, hp] <;>
    refine and_eq_zero_of_bits fun i hi => ?_ <;>
    interval_cases i <;>
    simp [encode, Instr.fieldBits, hp]

theorem cmp (letter : Symbol) (blank oring : Bool) : Statement (.cmp letter blank oring) := by
  intro cfg h
  cases hp : cfg.fieldPacking <;>
    simp only [canonical, unusedMask, opcodeOf_encode h, Instr.opcode, hp] <;>
    refine and_eq_zero_of_bits fun i hi => ?_ <;>
    interval_cases i <;>
    simp [encode, Instr.fieldBits, hp]

theorem brac (addr : Addr) (polarity : Bool) : Statement (.brac addr polarity) := by
  intro cfg h
  cases hp : cfg.fieldPacking <;>
    simp only [canonical, unusedMask, opcodeOf_encode h, Instr.opcode, hp] <;>
    refine and_eq_zero_of_bits fun i hi => ?_ <;>
    interval_cases i <;>
    simp [encode, Instr.fieldBits, hp]

theorem bra (addr : Addr) : Statement (.bra addr) := by
  intro cfg h
  cases hp : cfg.fieldPacking <;>
    simp only [canonical, unusedMask, opcodeOf_encode h, Instr.opcode, hp] <;>
    refine and_eq_zero_of_bits fun i hi => ?_ <;>
    interval_cases i <;>
    simp [encode, Instr.fieldBits, hp]

theorem draw (letter : Symbol) (blank : Bool) : Statement (.draw letter blank) := by
  intro cfg h
  cases hp : cfg.fieldPacking <;>
    simp only [canonical, unusedMask, opcodeOf_encode h, Instr.opcode, hp] <;>
    refine and_eq_zero_of_bits fun i hi => ?_ <;>
    interval_cases i <;>
    simp [encode, Instr.fieldBits, hp]

theorem move (left : Bool) : Statement (.move left) := by
  intro cfg h
  cases hp : cfg.fieldPacking <;>
    simp only [canonical, unusedMask, opcodeOf_encode h, Instr.opcode, hp] <;>
    refine and_eq_zero_of_bits fun i hi => ?_ <;>
    interval_cases i <;>
    simp [encode, Instr.fieldBits, hp]

theorem endRun (halt : Bool) : Statement (.endRun halt) := by
  intro cfg h
  cases hp : cfg.fieldPacking <;>
    simp only [canonical, unusedMask, opcodeOf_encode h, Instr.opcode, hp] <;>
    refine and_eq_zero_of_bits fun i hi => ?_ <;>
    interval_cases i <;>
    simp [encode, Instr.fieldBits, hp]

theorem nop : Statement (.nop) := by
  intro cfg h
  cases hp : cfg.fieldPacking <;>
    simp only [canonical, unusedMask, opcodeOf_encode h, Instr.opcode, hp] <;>
    refine and_eq_zero_of_bits fun i hi => ?_ <;>
    interval_cases i <;>
    simp [encode, Instr.fieldBits, hp]

end Sys2Proof.Laws.CanonicalWord
end

