-- ==== Sys2Proof/Laws/Step.lean ====
section
/-! SUPPORT. What each meaning and one step can answer, once: later proofs cite these and do not unfold `exec` or `step`. -/

namespace Sys2Proof.Machine

/-! ### The meanings -/

theorem exec_alpha (letter : Symbol) (s : State) : exec (.alpha letter) s = .next (s.declare letter) := rfl
theorem exec_brac (addr : Addr) (e : Bool) (s : State) :
    exec (.brac addr e) s = .next (if s.eq = e then s.jump addr else s) := rfl
theorem exec_bra (addr : Addr) (s : State) : exec (.bra addr) s = .next (s.jump addr) := rfl
theorem exec_endRun (halt : Bool) (s : State) : exec (.endRun halt) s = .next (s.halt (endStatus halt)) := rfl
theorem exec_nop (s : State) : exec .nop s = .next s := rfl

theorem exec_cmp {s : State} {c : Cell} (h : s.tapeRead = some c) (letter : Symbol) (blank oring : Bool) :
    exec (.cmp letter blank oring) s =
      if s.valid c then .next (s.setEq (compareFlag s.eq c letter blank oring)) else .next (s.halt .failed) := by
  simp [exec, execCmp, h]

theorem State.valid_iff (s : State) (c : Cell) : s.valid c = true ↔ s.validCell c := by
  cases c <;> simp [State.validCell, State.declared]

theorem compareFlag_eq (eq : Bool) (c : Cell) (letter : Symbol) (blank oring : Bool) :
    compareFlag eq c letter blank oring = (oring && eq || matchValue c letter blank) := by
  cases c <;> cases blank <;> cases oring <;> cases eq <;> simp [compareFlag, cellMatch, matchValue, beq_eq_decide]

/-- CMP over the cell under the head completes, and says what it leaves of the flag and the status (R134, R135). -/
theorem exec_cmp_completes {s : State} {c : Cell} (h : s.tapeRead = some c) (letter : Symbol) (blank oring : Bool) :
    ∃ t, exec (.cmp letter blank oring) s = .next t ∧ s.comparedIn t (s.validCell c) c letter blank oring := by
  rw [exec_cmp h]
  by_cases hv : s.valid c = true
  · have hc := (s.valid_iff c).mp hv
    exact ⟨_, if_pos hv, fun _ => ⟨rfl, compareFlag_eq _ _ _ _ _⟩, fun hn => absurd hc hn⟩
  · have hc := mt (s.valid_iff c).mpr hv
    exact ⟨_, if_neg hv, fun hp => absurd hp hc, fun _ => ⟨rfl, rfl⟩⟩

theorem exec_draw {s : State} {c : Cell} (h : s.tapeRead = some c) (letter : Symbol) (blank : Bool) :
    exec (.draw letter blank) s = .next (s.tapeWrite (drawCell letter blank)) := by
  simp [exec, execDraw, h]

theorem exec_move {s : State} {c : Cell} (h : s.tapeRead = some c) (left : Bool) :
    exec (.move left) s = s.countMove.tapeMove (moveDir left) := by
  simp [exec, execMove, h]

/-- A refusal is the head outside the tape, and nothing else (log entry 4). -/
theorem exec_refused {i : Instr} {s : State} {r : Refusal} (h : exec i s = .refused r) : s.tapeRead = none := by
  cases hc : s.tapeRead with
  | none => rfl
  | some c =>
    cases i with
    | cmp letter blank oring =>
      rw [exec_cmp hc] at h
      split at h <;> cases h
    | draw letter blank =>
      rw [exec_draw hc] at h
      cases h
    | move left =>
      rw [exec_move hc] at h
      rcases s.countMove.tapeMove_cases (moveDir left) with ⟨-, -, h'⟩ | ⟨-, -, h'⟩ | ⟨-, h'⟩ <;>
        rw [h'] at h <;> cases h
    | alpha letter => cases h
    | brac addr e => cases h
    | bra addr => cases h
    | endRun halt => cases h
    | nop => cases h

/-- A fault is a MOVE's growth at capacity, and nothing else (R208). -/
theorem exec_fault {i : Instr} {s : State} {r : Fault} (h : exec i s = .fault r) :
    r = .tapeExhausted ∧ ∃ left, i = .move left ∧ s.atEdge (moveDir left) = true ∧ s.tapeFull = true := by
  cases i with
  | cmp letter blank oring =>
    cases hc : s.tapeRead with
    | none =>
      simp only [exec, execCmp, hc] at h
      cases h
    | some c =>
      rw [exec_cmp hc] at h
      split at h <;> cases h
  | draw letter blank =>
    cases hc : s.tapeRead with
    | none =>
      simp only [exec, execDraw, hc] at h
      cases h
    | some c =>
      rw [exec_draw hc] at h
      cases h
  | move left =>
    cases hc : s.tapeRead with
    | none =>
      simp only [exec, execMove, hc] at h
      cases h
    | some c =>
      rw [exec_move hc] at h
      rcases s.countMove.tapeMove_cases (moveDir left) with ⟨h1, h2, h'⟩ | ⟨-, -, h'⟩ | ⟨-, h'⟩ <;> rw [h'] at h
      · cases h
        refine ⟨rfl, left, rfl, ?_, h2⟩
        cases left <;> simpa [State.atEdge] using h1
      · cases h
      · cases h
  | alpha letter => cases h
  | brac addr e => cases h
  | bra addr => cases h
  | endRun halt => cases h
  | nop => cases h

/-- Every way an instruction can answer a next state. -/
theorem exec_next_cases {i : Instr} {s t : State} (h : exec i s = .next t) :
    (∃ x, i = .alpha x ∧ t = s.declare x) ∨
    (∃ letter blank oring c, i = .cmp letter blank oring ∧ s.tapeRead = some c ∧ s.valid c = true ∧
      t = s.setEq (compareFlag s.eq c letter blank oring)) ∨
    (∃ letter blank oring c, i = .cmp letter blank oring ∧ s.tapeRead = some c ∧ s.valid c = false ∧
      t = s.halt .failed) ∨
    (∃ a e, i = .brac a e ∧ s.eq = e ∧ t = s.jump a) ∨
    (∃ a e, i = .brac a e ∧ s.eq ≠ e ∧ t = s) ∨
    (∃ a, i = .bra a ∧ t = s.jump a) ∨
    (∃ letter blank c, i = .draw letter blank ∧ s.tapeRead = some c ∧ t = s.tapeWrite (drawCell letter blank)) ∨
    (∃ left c, i = .move left ∧ s.tapeRead = some c ∧ s.countMove.atEdge (moveDir left) = true ∧
      s.countMove.tapeFull = false ∧ t = s.countMove.grown (moveDir left)) ∨
    (∃ left c, i = .move left ∧ s.tapeRead = some c ∧ s.countMove.atEdge (moveDir left) = false ∧
      t = s.countMove.shifted (moveDir left)) ∨
    (∃ b, i = .endRun b ∧ t = s.halt (endStatus b)) ∨
    (i = .nop ∧ t = s) := by
  cases i with
  | alpha x => cases h; exact .inl ⟨x, rfl, rfl⟩
  | cmp letter blank oring =>
    cases hc : s.tapeRead with
    | none =>
      simp only [exec, execCmp, hc] at h
      cases h
    | some c =>
      rw [exec_cmp hc] at h
      cases hv : s.valid c <;> rw [hv] at h <;> cases h
      · exact .inr (.inr (.inl ⟨letter, blank, oring, c, rfl, rfl, hv, rfl⟩))
      · exact .inr (.inl ⟨letter, blank, oring, c, rfl, rfl, hv, rfl⟩)
  | brac a e =>
    rw [exec_brac] at h
    split at h <;> cases h
    · exact .inr (.inr (.inr (.inl ⟨a, e, rfl, ‹_›, rfl⟩)))
    · exact .inr (.inr (.inr (.inr (.inl ⟨a, e, rfl, ‹_›, rfl⟩))))
  | bra a => cases h; exact .inr (.inr (.inr (.inr (.inr (.inl ⟨a, rfl, rfl⟩)))))
  | draw letter blank =>
    cases hc : s.tapeRead with
    | none =>
      simp only [exec, execDraw, hc] at h
      cases h
    | some c =>
      rw [exec_draw hc] at h
      cases h
      exact .inr (.inr (.inr (.inr (.inr (.inr (.inl ⟨letter, blank, c, rfl, rfl, rfl⟩))))))
  | move left =>
    cases hc : s.tapeRead with
    | none =>
      simp only [exec, execMove, hc] at h
      cases h
    | some c =>
      rw [exec_move hc] at h
      rcases s.countMove.tapeMove_cases (moveDir left) with ⟨-, -, h'⟩ | ⟨h1, h2, h'⟩ | ⟨h1, h'⟩ <;> rw [h'] at h
      · cases h
      · cases h
        exact .inr (.inr (.inr (.inr (.inr (.inr (.inr (.inl ⟨left, c, rfl, rfl, h1, h2, rfl⟩)))))))
      · cases h
        exact .inr (.inr (.inr (.inr (.inr (.inr (.inr (.inr (.inl ⟨left, c, rfl, rfl, h1, rfl⟩))))))))
  | endRun b =>
    cases h
    exact .inr (.inr (.inr (.inr (.inr (.inr (.inr (.inr (.inr (.inl ⟨b, rfl, rfl⟩)))))))))
  | nop =>
    cases h
    exact .inr (.inr (.inr (.inr (.inr (.inr (.inr (.inr (.inr (.inr ⟨rfl, rfl⟩)))))))))

/-! ### The step -/

theorem step_of_fault {s : State} {r : Fault} (h : s.fault = some r) : step s = .fault r := by
  simp [step, sequenceStep, h]

theorem step_of_terminal {s : State} (hf : s.fault = none) (h : s.terminal) : step s = .next s := by
  rcases h with h | h <;> simp [step, sequenceStep, hf, h]

theorem step_of_enabled {s : State} (h : s.enabled) : step s = perform exec s := by
  simp [step, sequenceStep, h.1, h.2]

theorem step_fetched {s : State} {w : Word} (h : s.enabled) (hw : s.fetchWord = some w) :
    step s = commit s (exec (decode s.cfg w) (s.fetched w)) := by
  rw [step_of_enabled h, perform, hw]

theorem step_unloaded {s : State} (h : s.enabled) (hw : s.fetchWord = none) :
    step s = .next (s.raise .unloadedFetch) := by
  rw [step_of_enabled h, perform, hw]

/-- Every way a step can answer a next state. -/
theorem step_next_cases {s t : State} (h : step s = .next t) :
    (s.fault = none ∧ s.terminal ∧ t = s) ∨
    (s.enabled ∧ s.fetchWord = none ∧ t = s.raise .unloadedFetch) ∨
    (∃ w, s.enabled ∧ s.fetchWord = some w ∧ exec (decode s.cfg w) (s.fetched w) = .next t) ∨
    (∃ w, s.enabled ∧ s.fetchWord = some w ∧ exec (decode s.cfg w) (s.fetched w) = .fault .tapeExhausted ∧
      t = s.raise .tapeExhausted) := by
  cases hf : s.fault with
  | some r =>
    rw [step_of_fault hf] at h
    cases h
  | none =>
    cases hs : s.status with
    | halted =>
      rw [step_of_terminal hf (.inl hs)] at h
      cases h
      exact .inl ⟨rfl, .inl hs, rfl⟩
    | failed =>
      rw [step_of_terminal hf (.inr hs)] at h
      cases h
      exact .inl ⟨rfl, .inr hs, rfl⟩
    | running =>
      have he : s.enabled := ⟨hs, hf⟩
      cases hw : s.fetchWord with
      | none =>
        rw [step_unloaded he hw] at h
        cases h
        exact .inr (.inl ⟨he, rfl, rfl⟩)
      | some w =>
        rw [step_fetched he hw] at h
        cases ho : exec (decode s.cfg w) (s.fetched w) with
        | next u =>
          rw [ho] at h
          cases h
          exact .inr (.inr (.inl ⟨w, he, rfl, ho⟩))
        | fault r =>
          obtain ⟨rfl, -⟩ := exec_fault ho
          rw [ho] at h
          cases h
          exact .inr (.inr (.inr ⟨w, he, rfl, ho, rfl⟩))
        | refused r =>
          rw [ho] at h
          cases h

/-! ### Runs -/

theorem runSteps_zero (s : State) : runSteps 0 s = .next s := rfl

theorem runSteps_succ (k : Nat) (s : State) :
    runSteps (k + 1) s =
      match step s with
      | .next t => runSteps k t
      | .fault r => .fault r
      | .refused r => .refused r := rfl

/-- These are the runs of the host's interface. -/
theorem runSteps_eq_core_run (k : Nat) (s : State) : runSteps k s = Sys2Proof.core.run k s := by
  induction k generalizing s with
  | zero => rfl
  | succ k ih =>
    rw [runSteps_succ]
    cases h : step s with
    | next t =>
      have h' : Sys2Proof.core.step s = .next t := h
      simp only [Host.Core.run, h']
      exact ih t
    | fault r =>
      have h' : Sys2Proof.core.step s = .fault r := h
      simp only [Host.Core.run, h']
      rfl
    | refused r =>
      have h' : Sys2Proof.core.step s = .refused r := h
      simp only [Host.Core.run, h']
      rfl

theorem runSteps_next {k : Nat} {s t : State} (h : step s = .next t) : runSteps (k + 1) s = runSteps k t := by
  rw [runSteps_succ, h]

/-- A run that answers a next state made every one of its steps. -/
theorem runSteps_succ_next {k : Nat} {s u : State} (h : runSteps (k + 1) s = .next u) :
    ∃ t, step s = .next t ∧ runSteps k t = .next u := by
  rw [runSteps_succ] at h
  cases hs : step s with
  | next t => exact ⟨t, rfl, by rw [hs] at h; exact h⟩
  | fault r => rw [hs] at h; cases h
  | refused r => rw [hs] at h; cases h

/-- What every step keeps, every run keeps. -/
theorem runSteps_induct {P : State → Prop} (hstep : ∀ s t, P s → step s = .next t → P t) {k : Nat} {s t : State}
    (hs : P s) (h : runSteps k s = .next t) : P t := by
  induction k generalizing s with
  | zero =>
    cases h
    exact hs
  | succ k ih =>
    obtain ⟨u, h1, h2⟩ := runSteps_succ_next h
    exact ih (hstep s u hs h1) h2

end Sys2Proof.Machine
end

