-- ==== Sys2Proof/Tests/Slice0.lean ====
section
/-! SUPPORT. Tests: expected results are the spec's own, from 95_test_vectors.md (V-…, L…) and the worked examples of the rules. Then
the witnesses: for each statement with hypotheses, a state and operands that meet them together. -/

namespace Sys2Proof.Tests

open Sys2Proof Sys2Proof.Machine

/-- The next state an answer holds. -/
def nextOf : Host.Outcome State Fault Refusal → Option State
  | .next s => some s
  | .fault _ => none
  | .refused _ => none

/-- A state whose next step, at `pc` 0, fetches `w`, over the given tape and head. -/
def oneWord (w : Word) (tape : List Cell) (head : Nat) : State :=
  { State.reset with imem := [(0, w)], tape := tape, head := head }

/-- The default parameters under the other packing. -/
def lsbConfig : Config := { Config.default with fieldPacking := .lsbFirst }

/-- A tape of capacity 2 (V-MOVE-7, V-MOVE-8). -/
def boundedConfig : Config := { Config.default with tapeCapacity := some 2 }

/-- 'a', 'b' and 'z' (R9). -/
abbrev a : Symbol := 0x61
abbrev b : Symbol := 0x62
abbrev z : Symbol := 0x7A

/-! ### Well-formedness: each check refuses an ill-formed term -/

/-- Two opcodes share a value, which R92 rules out. -/
theorem test_config_refuses_a_shared_opcode_value :
    ¬ ({ Config.default with opcodeMap := { OpcodeMap.default with cmp := 0b000 } } : Config).wellFormed := by decide

theorem test_default_config_is_well_formed : Config.default.wellFormed := by decide

/-- Falling addresses. -/
theorem test_memory_refuses_falling_addresses : ¬ Memory.wf [(1, 0xE000), (0, 0xE000)] := by decide

/-- The same address twice. -/
theorem test_memory_refuses_a_repeated_address : ¬ Memory.wf [(3, 0xE000), (3, 0xD000)] := by decide

/-- Address 4096 does not exist (R51). -/
theorem test_memory_refuses_address_4096 : ¬ Memory.wf [(4096, 0xE000)] := by decide

/-- V-DEC-3: unused bits set. -/
theorem test_canonical_refuses_set_unused_bits : ¬ canonical Config.default 0x0C3F := by decide

theorem test_canonical_accepts_the_canonical_word : canonical Config.default 0x0C20 := by decide

/-- V-LOAD-4: a 3-byte image. -/
theorem test_load_refuses_odd_length : load (.bytes [0x20, 0x0C, 0x20]) = .error .oddLength := by rfl

/-- V-LOAD-3: an 8194-byte image. -/
theorem test_load_refuses_8194_bytes : load (.bytes (List.replicate 8194 0)) = .error .tooLarge := by
  simp only [load, List.length_replicate]
  rfl

/-! ### Decoding: a word for every constructor, written out from its format -/

/-- V-DEC-3, R83: 000 01100001 11111. -/
theorem test_decode_alpha : decode Config.default 0b0000110000111111 = .alpha 0x61 := by decide

/-- V-DEC-7, R84: 001 01100001 1 1 000. -/
theorem test_decode_cmp : decode Config.default 0b0010110000111000 = .cmp 0x61 true true := by decide

/-- V-DEC-5, R84: 001 00000000 1 0 000. -/
theorem test_decode_cmp_blank : decode Config.default 0b0010000000010000 = .cmp 0 true false := by decide

/-- V-BR-3, R85: 010 000000000101 0. -/
theorem test_decode_brac : decode Config.default 0b0100000000001010 = .brac 5 false := by decide

/-- V-DEC-14, R86: 011 111111111111 1. -/
theorem test_decode_bra : decode Config.default 0b0111111111111111 = .bra 4095 := by decide

/-- V-DEC-16, R87: 100 01111000 0 1111. -/
theorem test_decode_draw : decode Config.default 0b1000111100001111 = .draw 0x78 false := by decide

/-- V-DEC-19, R88: 101 0 111111111111. -/
theorem test_decode_move_right : decode Config.default 0b1010111111111111 = .move false := by decide

/-- V-DEC-20, R88: 101 1 000000000000. -/
theorem test_decode_move_left : decode Config.default 0b1011000000000000 = .move true := by decide

/-- V-DEC-24, R88: 110 1 111111111111. -/
theorem test_decode_end : decode Config.default 0b1101111111111111 = .endRun true := by decide

/-- V-DEC-26, R89: 111 0000100100011. -/
theorem test_decode_nop : decode Config.default 0b1110000100100011 = .nop := by decide

/-- 95_test_vectors.md §2.1's words under `LsbFirst` (R91). -/
theorem test_encode_lsbFirst :
    [Instr.alpha 0x61, .cmp 0x61 true true, .brac 0 true, .bra 4095, .move true, .endRun true].map (encode lsbConfig) =
      [0x0061, 0x2361, 0x5000, 0x6FFF, 0xA001, 0xC001] := by decide

theorem test_decode_lsbFirst :
    [0x0061, 0x2361, 0x5000, 0x6FFF, 0xA001, 0xC001].map (decode lsbConfig) =
      [Instr.alpha 0x61, .cmp 0x61 true true, .brac 0 true, .bra 4095, .move true, .endRun true] := by decide

/-- V-LOAD-1's first word: bytes 20 0C. -/
theorem test_decode_bytes_little_endian : decodeBytes Config.default [0x20, 0x0C, 0x20] = .ok (.alpha 0x61, [0x20]) := by
  rfl

theorem test_decode_bytes_truncated : decodeBytes Config.default [0x20] = .error .truncated := by rfl

theorem test_decode_table_word : decodeTableWord 16 0x400A = some (.brac 5 false) := by decide

/-! ### The step -/

/-- V-SEQ-1. -/
theorem test_nop_step :
    nextOf (step { State.reset with imem := [(5, 0xE000)], pc := 5, steps := 7 }) =
      some { State.reset with imem := [(5, 0xE000)], pc := 6, steps := 8, ir := some 0xE000 } := by decide

/-- V-SEQ-2. -/
theorem test_nop_wraps : (nextOf (step { State.reset with imem := [(4095, 0xE000)], pc := 0x0FFF })).map (·.pc) = some 0 := by
  decide

/-- V-SEQ-4. -/
theorem test_unloaded_fetch :
    nextOf (step { State.reset with imem := [(0, 0xE000)], pc := 4 }) =
      some { State.reset with imem := [(0, 0xE000)], pc := 4, fault := some .unloadedFetch } := by decide

/-- V-SEQ-5. -/
theorem test_halted_state_is_unchanged :
    nextOf (step { State.reset with status := .halted }) = some { State.reset with status := .halted } := by decide

/-- V-ALPHA-5. -/
theorem test_alpha_ignores_the_tape :
    (nextOf (step { oneWord 0x0C20 [.symbol z] 0 with eq := true })).map
      (fun s => (s.declared a, s.declared z, s.eq, s.status)) = some (true, false, true, .running) := by decide

/-- V-ALPHA-4. -/
theorem test_alpha_255 : (nextOf (step (oneWord 0x1FE0 [.blank] 0))).map (fun s => (s.declared 0xFF, s.declared 0xFE)) =
    some (true, false) := by decide

/-- V-CMP-8: the check before the short-circuit. -/
theorem test_cmp_fails_before_short_circuit :
    (nextOf (step { (oneWord 0x2C48 [.symbol z] 0).declare a with eq := true })).map (fun s => (s.eq, s.status, s.ir)) =
      some (true, .failed, some 0x2C48) := by decide

/-- V-CMP-5: OR never clears. -/
theorem test_cmp_or_never_clears :
    (nextOf (step { ((oneWord 0x2C48 [.symbol a] 0).declare a).declare b with eq := true })).map
      (fun s => (s.eq, s.status)) = some (true, .running) := by decide

/-- V-BR-2. -/
theorem test_brac_not_taken :
    (nextOf (step { State.reset with imem := [(2, 0x4001)], pc := 2 })).map (·.pc) = some 3 := by decide

/-- V-BR-3. -/
theorem test_brac_taken_on_clear_flag :
    (nextOf (step { State.reset with imem := [(6, 0x400A)], pc := 6 })).map (·.pc) = some 5 := by decide

/-- V-BR-9. -/
theorem test_bra_ignores_the_unused_bit : (nextOf (step (oneWord 0x7FFF [.blank] 0))).map (·.pc) = some 0x0FFF := by decide

/-- V-DRAW-2. -/
theorem test_draw_blank : (nextOf (step (oneWord 0x8010 [.symbol a, .symbol b] 1))).map (·.tape) =
    some [.symbol a, .blank] := by decide

/-- V-MOVE-2: left growth. -/
theorem test_move_left_grows :
    (nextOf (step (oneWord 0xB000 [.symbol 0x78] 0))).map (fun s => (s.tape, s.head, s.moves)) =
      some ([.blank, .symbol 0x78], 0, 1) := by decide

/-- V-MOVE-7: the state is unchanged but for the mark. -/
theorem test_move_exhausted :
    nextOf (step { oneWord 0xA000 [.symbol a, .symbol b] 1 with cfg := boundedConfig }) =
      some { oneWord 0xA000 [.symbol a, .symbol b] 1 with cfg := boundedConfig, fault := some .tapeExhausted } := by decide

/-- V-END-3. -/
theorem test_end_halts_and_wraps :
    (nextOf (step { State.reset with imem := [(4095, 0xDFFF)], pc := 0x0FFF })).map (fun s => (s.status, s.pc)) =
      some (.halted, 0) := by decide

/-- V-END-4. -/
theorem test_end_fails : (nextOf (step (oneWord 0xCFFF [.blank] 0))).map (fun s => (s.status, s.pc)) =
    some (.failed, 1) := by decide

/-! ### The host interface -/

/-- V-LOAD-1. -/
theorem test_load_words : load (.bytes [0x20, 0x0C, 0x20, 0x2C]) = .ok [(0, 0x0C20), (1, 0x2C20)] := by rfl

/-- V-TAPE-5. -/
theorem test_tape_crlf : tapeOfLine [0x61, 0x20, 0x62, 0x0D, 0x0A] = [.symbol a, .symbol 0x20, .symbol b, .blank] := by decide

/-- V-TAPE-3 and V-TAPE-4. -/
theorem test_tape_empty_line : tapeOfLine [0x0A] = [.blank] ∧ tapeOfLine [] = [.blank] := by decide

/-- `State.reset` is the start of a run of an empty image over an empty line (log entry 5). -/
theorem test_reset_is_an_empty_run : State.reset = startRun Config.default [] (tapeOfLine []) := by decide

/-- D16: the image ALPHA 'a'; END declares 'a' under `PreScan`. -/
theorem test_pre_scan : preScan Config.default [(0, 0x0C20), (1, 0xD000)] = BitVec.twoPow 256 0x61 := by decide

/-! ### Witnesses -/

theorem witness_MsbFirstFormats :
    Config.default.wellFormed ∧ Config.default.fieldPacking = .msbFirst ∧
    (0x0C3F#16).toNat = Config.default.opcodeMap.alpha.toNat * 8192 + a.toNat * 32 + 31 ∧
    (0x3FFF#16).toNat =
      Config.default.opcodeMap.cmp.toNat * 8192 + (0xFF#8).toNat * 32 + true.toNat * 16 + true.toNat * 8 + 7 ∧
    (0x5FFF#16).toNat = Config.default.opcodeMap.brac.toNat * 8192 + (4095#12).toNat * 2 + true.toNat ∧
    (0x7FFF#16).toNat = Config.default.opcodeMap.bra.toNat * 8192 + (4095#12).toNat * 2 + 1 ∧
    (0x9FFF#16).toNat = Config.default.opcodeMap.draw.toNat * 8192 + (0xFF#8).toNat * 32 + true.toNat * 16 + 15 ∧
    (0xAFFF#16).toNat = Config.default.opcodeMap.move.toNat * 8192 + false.toNat * 4096 + 4095 ∧
    (0xDFFF#16).toNat = Config.default.opcodeMap.endRun.toNat * 8192 + true.toNat * 4096 + 4095 ∧
    (∀ o ∈ Opcode.all, Config.default.opcodeMap.value o ≠ 7) ∧ (0xFFFF#16).toNat / 8192 = (7#3).toNat := by decide

theorem witness_LsbFirstFormats :
    lsbConfig.wellFormed ∧ lsbConfig.fieldPacking = .lsbFirst ∧
    (0x1F61#16).toNat = lsbConfig.opcodeMap.alpha.toNat * 8192 + 31 * 256 + a.toNat ∧
    (0x3F61#16).toNat =
      lsbConfig.opcodeMap.cmp.toNat * 8192 + 7 * 1024 + true.toNat * 512 + true.toNat * 256 + a.toNat ∧
    (0x5FFF#16).toNat = lsbConfig.opcodeMap.brac.toNat * 8192 + true.toNat * 4096 + (4095#12).toNat ∧
    (0x7FFF#16).toNat = lsbConfig.opcodeMap.bra.toNat * 8192 + 1 * 4096 + (4095#12).toNat ∧
    (0x9F61#16).toNat = lsbConfig.opcodeMap.draw.toNat * 8192 + 15 * 512 + true.toNat * 256 + a.toNat ∧
    (0xBFFF#16).toNat = lsbConfig.opcodeMap.move.toNat * 8192 + 4095 * 2 + true.toNat ∧
    (0xDFFE#16).toNat = lsbConfig.opcodeMap.endRun.toNat * 8192 + 4095 * 2 + false.toNat ∧
    (∀ o ∈ Opcode.all, lsbConfig.opcodeMap.value o ≠ 7) ∧ (0xE000#16).toNat / 8192 = (7#3).toNat := by decide

/-- For ExactlyOneOpcodeValueIsNop, DecodeOfEncodeIsTheInstruction and ReencodingRestoresExactlyCanonicalWords: a map that is
not the default. -/
theorem witness_wellFormed_configurations :
    lsbConfig.wellFormed ∧
    ({ lsbConfig with opcodeMap := ⟨7, 5, 3, 1, 0, 2, 6⟩ } : Config).wellFormed := by decide

theorem witness_UnusedBitsAreIgnored :
    (0x0C20#16 ^^^ 0x0C3F#16) &&& ~~~(unusedMask Config.default 0x0C20) = 0 ∧
    Memory.read [(0, 0x0C20)] (State.reset.pc.toNat % 4096) = some 0x0C20 ∧
    Memory.read [(0, 0x0C3F)] (State.reset.pc.toNat % 4096) = some 0x0C3F := by decide

/-- A session with the image ALPHA 'a'; END loaded. -/
def loadedSession : Session := ⟨Config.default, some [(0, 0x0C20), (1, 0xD000)], none⟩

theorem witness_RunStartsFromTheResetValues :
    loadedSession.run = none ∧ loadedSession.image = some [(0, 0x0C20), (1, 0xD000)] ∧
    loadedSession.cfg.alphabetSeed = .empty := by decide

theorem witness_ImagesLoadWordByWord :
    load (.bytes [0x20, 0x0C]) = .ok [(0, 0x0C20)] ∧ ([0x20, 0x0C] : List Byte)[2 * 0]? = some 0x20 ∧
    ([0x20, 0x0C] : List Byte)[2 * 0 + 1]? = some 0x0C ∧ [0x20, 0x0C].length / 2 ≤ 1 ∧
    load .missing = .error .missing ∧ load .unreadable = .error .unreadable := ⟨rfl, rfl, rfl, by decide, rfl, rfl⟩

/-- For ImagesLoadWordByWord's load error and FailedLoadKeepsTheEarlierImage: a session with nothing loaded, and one with an
image. -/
theorem witness_FailedLoadKeepsTheEarlierImage :
    (⟨Config.default, none, none⟩ : Session).run = none ∧ (⟨Config.default, none, none⟩ : Session).image = none ∧
    loadedSession.run = none ∧ loadedSession.image = some [(0, 0x0C20), (1, 0xD000)] ∧
    load (.bytes [0x20]) = .error .oddLength := ⟨rfl, rfl, rfl, rfl, rfl⟩

theorem witness_EmptyImageLoadsAndItsRunsFault : Config.default.imemUnloaded = .fault := by decide

theorem witness_InitialTapeOfALine :
    ([] : List Byte).getLast? ≠ some 0x0A ∧ ([0x61] : List Byte).getLast? ≠ some 0x0A ∧
    ([] : List Byte).getLast? ≠ some 0x0D ∧ ([0x61] : List Byte).getLast? ≠ some 0x0D := by decide

theorem witness_PreScanDeclaresTheLettersOfTheImage :
    ({ Config.default with alphabetSeed := .preScan } : Config).alphabetSeed = .preScan ∧
    ((0, 0x0C20) : Nat × Word) ∈ ([(0, 0x0C20)] : Memory) ∧ decode Config.default 0x0C20 = .alpha a := by decide

/-- The run of `loadedSession` after its ALPHA: its next step is the END. -/
def atEnd : State := { startRun Config.default [(0, 0x0C20), (1, 0xD000)] [.blank] with pc := 1 }

theorem witness_OutcomeIsReadAtTheTerminalState :
    ({ loadedSession with run := some atEnd } : Session).run = some atEnd ∧ atEnd.enabled ∧
    (nextOf (step atEnd)).map (·.status) = some .halted ∧
    (coreMove { loadedSession with run := some atEnd }).2.isSome = true := by decide

theorem witness_NextRunStartsFresh :
    loadedSession.image = some [(0, 0x0C20), (1, 0xD000)] ∧
    (sessionAfter loadedSession [.host (.run [0x61]), .core, .core]).run = none := by decide

theorem witness_StepRunsTheDecodedInstruction :
    State.reset.status = .running ∧ State.reset.fault = none ∧ (oneWord 0x0C20 [.blank] 0).fetches 0x0C20 ∧
    ({ State.reset with cfg := { Config.default with imemUnloaded := .fill 0xE000 } } : State).fetches 0xE000 ∧
    nextOf (exec (decode Config.default 0x0C20) ((oneWord 0x0C20 [.blank] 0).afterFetch 0x0C20)) ≠ none ∧
    State.reset.imem.read (State.reset.pc.toNat % 4096) = none ∧ State.reset.cfg.imemUnloaded = .fault :=
  ⟨rfl, rfl, .inl rfl, .inr ⟨rfl, rfl⟩, by decide, rfl, rfl⟩

theorem witness_StepRunsTheDecodedInstruction_fault :
    exec (.move false) ({ oneWord 0xA000 [.symbol a, .symbol b] 1 with cfg := boundedConfig } : State) =
      .fault .tapeExhausted := rfl

/-- For PcIncrementsModulo4096, at 4095. -/
theorem witness_PcIncrementsModulo4096 :
    ({ State.reset with imem := [(4095, 0xE000)], pc := 0x0FFF } : State).enabled ∧
    ({ State.reset with imem := [(4095, 0xE000)], pc := 0x0FFF } : State).fetches 0xE000 ∧
    (nextOf (step { State.reset with imem := [(4095, 0xE000)], pc := 0x0FFF })).map (·.fault) = some none ∧
    decode Config.default 0xE000 = .nop ∧ (0x0FFF#16).toNat % 4096 = 4095 :=
  ⟨⟨rfl, rfl⟩, .inl rfl, by decide, by decide, by decide⟩

/-- For EveryFetchedStepCountsOnce, MovesCountsExactlyTheMoves and ModelFaultCommitsNothingElse: a step that completes,
unbounded and at width 0, and one that faults. -/
theorem witness_counted_and_faulting_steps :
    (oneWord 0xA000 [.blank] 0).enabled ∧ (oneWord 0xA000 [.blank] 0).fetches 0xA000 ∧
    decode Config.default 0xA000 = .move false ∧ decode Config.default 0xE000 = .nop ∧
    (nextOf (step (oneWord 0xA000 [.blank] 0))).map (·.fault) = some none ∧
    (nextOf (step { oneWord 0xA000 [.blank] 0 with cfg := { Config.default with counterWidth := some 0 } })).map
      (fun s => (s.fault, s.steps, s.moves)) = some (none, 0, 0) ∧
    (nextOf (step State.reset)).map (·.fault) = some (some .unloadedFetch) ∧
    ({ State.reset with fault := some .unloadedFetch } : State).fault = some .unloadedFetch :=
  ⟨⟨rfl, rfl⟩, .inl rfl, by decide, by decide, by decide, by decide, by decide, rfl⟩

theorem witness_ExhaustedTapeStopsAGrowingMove :
    ({ oneWord 0xA000 [.symbol a, .symbol b] 1 with cfg := boundedConfig } : State).enabled ∧
    ({ oneWord 0xA000 [.symbol a, .symbol b] 1 with cfg := boundedConfig } : State).fetches 0xA000 ∧
    decode boundedConfig 0xA000 = .move false ∧ 1 < ([.symbol a, .symbol b] : List Cell).length ∧
    boundedConfig.tapeCapacity = some ([.symbol a, .symbol b] : List Cell).length ∧
    ({ oneWord 0xA000 [.symbol a, .symbol b] 1 with cfg := boundedConfig } : State).growing false ∧
    ¬ ({ oneWord 0xA000 [.symbol a, .symbol b] 0 with cfg := boundedConfig } : State).growing false ∧
    Config.default.tapeCapacity = none :=
  ⟨⟨rfl, rfl⟩, .inl rfl, by decide, by decide, by decide, rfl, by unfold State.growing; decide, rfl⟩

/-- For InvalidSymbolFailsTheRun and TerminalStatesAreReachedAndKept (a CMP that fails). -/
theorem witness_InvalidSymbolFailsTheRun :
    (oneWord 0x2010 [.symbol z] 0).enabled ∧ (oneWord 0x2010 [.symbol z] 0).fetches 0x2010 ∧
    decode Config.default 0x2010 = .cmp 0 true false ∧
    (oneWord 0x2010 [.symbol z] 0).tape[(oneWord 0x2010 [.symbol z] 0).head]? = some (.symbol z) ∧
    (oneWord 0x2010 [.symbol z] 0).alpha.getLsbD z.toNat = false :=
  ⟨⟨rfl, rfl⟩, .inl rfl, by decide, rfl, by decide⟩

/-- For TerminalStatesAreReachedAndKept and EndSetsTheStatus (an END), and a run from a terminal state. -/
theorem witness_TerminalStatesAreReachedAndKept :
    atEnd.enabled ∧ atEnd.fetches 0xD000 ∧ decode Config.default 0xD000 = .endRun true ∧
    (nextOf (step atEnd)).map (·.status) = some .halted ∧
    ({ State.reset with status := .failed } : State).status ≠ .running ∧
    nextOf (runSteps 2 { State.reset with status := .failed }) = some { State.reset with status := .failed } :=
  ⟨⟨rfl, rfl⟩, .inl rfl, by decide, by decide, by decide, by decide⟩

/-- For AlphaDeclaresItsLetter and the encoding clauses of the instruction statements, at the top of each range. -/
theorem witness_default_formats :
    (0x1FFF#16).toNat = 0b000 * 8192 + (0xFF#8).toNat * 32 + 31 ∧
    (0x3FFF#16).toNat = 0b001 * 8192 + (0xFF#8).toNat * 32 + true.toNat * 16 + true.toNat * 8 + 7 ∧
    (0x5FFF#16).toNat = 0b010 * 8192 + (4095#12).toNat * 2 + true.toNat ∧
    (0x7FFF#16).toNat = 0b011 * 8192 + (4095#12).toNat * 2 + 1 ∧
    (0x9FFF#16).toNat = 0b100 * 8192 + (0xFF#8).toNat * 32 + true.toNat * 16 + 15 ∧
    (0xBFFF#16).toNat = 0b101 * 8192 + true.toNat * 4096 + 4095 ∧
    (0xDFFF#16).toNat = 0b110 * 8192 + true.toNat * 4096 + 4095 ∧
    (0xFFFF#16).toNat = 0b111 * 8192 + 8191 ∧ State.reset.alpha = 0 := by decide

theorem witness_DeclarationsOnlyGrowAndOnlyByAlpha :
    (State.reset.declare a).alpha.getLsbD a.toNat = true ∧
    nextOf (runSteps 0 (State.reset.declare a)) = some (State.reset.declare a) ∧
    (oneWord 0x0C20 [.blank] 0).enabled ∧ (oneWord 0x0C20 [.blank] 0).alpha.getLsbD a.toNat = false ∧
    (nextOf (step (oneWord 0x0C20 [.blank] 0))).map (fun t => t.alpha.getLsbD a.toNat) = some true := by decide

/-- For CmpChecksThenComparesTheCell and OrChainMatchesAnyOfItsLetters: an undeclared symbol, a declared one with the flag set
and clear, and a blank cell, for which nothing need be declared. -/
theorem witness_CmpChecksThenComparesTheCell :
    (oneWord 0x2C20 [.symbol z] 0).tape[0]? = some (.symbol z) ∧
    (oneWord 0x2C20 [.symbol z] 0).alpha.getLsbD z.toNat = false ∧
    ((oneWord 0x2C20 [.symbol a] 0).declare a).tape[0]? = some (.symbol a) ∧
    ((oneWord 0x2C20 [.symbol a] 0).declare a).alpha.getLsbD a.toNat = true ∧
    ((oneWord 0x2C20 [.symbol a] 0).declare a).eq = false ∧
    (((oneWord 0x2C20 [.symbol a] 0).declare a).setEq true).eq = true ∧
    (oneWord 0x2C20 [.blank] 0).tape[0]? = some .blank := by decide

theorem witness_OrChainMatchesAnyOfItsLetters :
    (nextOf (exec (.cmp b false true) (((oneWord 0x2C48 [.symbol a] 0).declare a).setEq true))).map (·.eq) = some true ∧
    (nextOf (exec (.cmp b false false) (((oneWord 0x2C48 [.symbol a] 0).declare a).setEq true))).map
      (fun t => (t.eq, t.status)) = some (false, .running) := by decide

/-- For EqualityFlagIsCmpsAndBracs: a completing instruction that is no CMP, one that is no BRAC, and a CMP that does not fail. -/
theorem witness_EqualityFlagIsCmpsAndBracs :
    nextOf (exec .nop State.reset) = some State.reset ∧
    (nextOf (exec (.cmp a false false) ((oneWord 0x2C20 [.symbol a] 0).declare a))).map (·.status) = some .running ∧
    ((oneWord 0x2C20 [.symbol a] 0).declare a).status ≠ .failed := by decide

/-- For BracJumpsWhenTheFlagMatches: both cases. -/
theorem witness_BracJumpsWhenTheFlagMatches : State.reset.eq = false ∧ State.reset.eq ≠ true := by decide

/-- For DrawWritesTheCellUnderTheHead, MoveMovesTheHeadAndGrowsTheTape, MoveKeepsEveryCell and MoveCornerCases: a one-cell tape, and the middle of
three cells; room unbounded and room for one more cell. -/
theorem witness_tape_statements :
    State.reset.head < State.reset.tape.length ∧ State.reset.tape.length = 1 ∧ State.reset.head = 0 ∧
    State.reset.head = State.reset.tape.length - 1 ∧
    (oneWord 0 [.blank, .blank, .blank] 1).head ≠ 0 ∧
    (oneWord 0 [.blank, .blank, .blank] 1).head ≠ (oneWord 0 [.blank, .blank, .blank] 1).tape.length - 1 ∧
    State.reset.hasRoom ∧ ({ State.reset with cfg := boundedConfig } : State).hasRoom ∧
    State.reset.growing true ∧ State.reset.growing false ∧ ¬ (oneWord 0 [.blank, .blank, .blank] 1).growing true ∧
    (nextOf (exec (.move true) State.reset)).isSome = true :=
  ⟨by decide, rfl, rfl, rfl, by decide, by decide, .inl rfl, .inr ⟨2, rfl, by decide⟩, rfl, rfl,
    by unfold State.growing; decide, by decide⟩

theorem witness_MoveMovesTheHeadAndGrowsTheTape_exhausted :
    ({ oneWord 0xB000 [.symbol a, .symbol b] 0 with cfg := boundedConfig } : State).growing true ∧
    boundedConfig.tapeCapacity = some ([.symbol a, .symbol b] : List Cell).length := ⟨rfl, rfl⟩

theorem witness_NopOnlyPassesTheStep :
    (oneWord 0xFFFF [.blank] 0).enabled ∧ (oneWord 0xFFFF [.blank] 0).fetches 0xFFFF ∧
    (∀ o ∈ Opcode.all, (oneWord 0xFFFF [.blank] 0).cfg.opcodeMap.value o ≠ 7) ∧ (0xFFFF#16).toNat / 8192 = (7#3).toNat ∧
    ({ State.reset with pc := 0x0FFF } : State).pc.toNat % 4096 = 4095 :=
  ⟨⟨rfl, rfl⟩, .inl rfl, by decide, by decide, by decide⟩

/-- For OnlyDrawAndMoveTouchTheTape and the two frames: an instruction of each kind completes. -/
theorem witness_frames :
    (nextOf (exec (.bra 3) State.reset)).isSome = true ∧ (nextOf (exec (.alpha a) State.reset)).isSome = true ∧
    (nextOf (exec (.cmp 0 true false) State.reset)).isSome = true ∧ (nextOf (exec (.brac 3 true) State.reset)).isSome = true ∧
    (nextOf (exec (.endRun true) State.reset)).isSome = true ∧ (nextOf (exec .nop State.reset)).isSome = true ∧
    (nextOf (exec (.draw a true) State.reset)).isSome = true ∧ (nextOf (exec (.move true) State.reset)).isSome = true := by
  decide

/-- Both directions of a MOVE, at an edge (with a fill other than Blank too) and away from it. -/
theorem witness_NoHazardBetweenInstructions :
    ((oneWord 0 [.symbol a] 0).declare a).tape[0]? = some (.symbol a) ∧
    ((oneWord 0 [.symbol a] 0).declare a).validCell (.symbol a) ∧ State.reset.validCell .blank ∧
    ¬ State.reset.validCell (.symbol z) ∧
    State.reset.head < State.reset.tape.length ∧ State.reset.growing true ∧ State.reset.growing false ∧
    ({ State.reset with cfg := { Config.default with growFill := .symbol a } } : State).hasRoom ∧
    (oneWord 0 [.symbol a, .blank, .symbol z] 1).head < (oneWord 0 [.symbol a, .blank, .symbol z] 1).tape.length ∧
    ¬ (oneWord 0 [.symbol a, .blank, .symbol z] 1).growing true ∧
    ¬ (oneWord 0 [.symbol a, .blank, .symbol z] 1).growing false ∧
    (oneWord 0 [.symbol a, .blank, .symbol z] 1).tape[1 - 1]? = some (.symbol a) ∧
    (oneWord 0 [.symbol a, .blank, .symbol z] 1).tape[1 + 1]? = some (.symbol z) :=
  ⟨rfl, (by rintro _ ⟨⟩; decide), (by rintro _ ⟨⟩), (fun h => absurd (h z rfl) (by decide)), by decide, rfl, rfl,
    .inl rfl, by decide, by unfold State.growing; decide, by unfold State.growing; decide, rfl, rfl⟩

theorem witness_runs :
    nextOf (runSteps 1 (startRun Config.default [(0, 0xA000)] (tapeOfLine [0x61]))) =
      some { startRun Config.default [(0, 0xA000)] [.symbol a, .blank] with
        head := 1, pc := 1, ir := some 0xA000, steps := 1, moves := 1 } ∧
    (∀ f : ImageFile, HostMove.observe ≠ .load f) := ⟨by decide, by intro f h; cases h⟩

theorem witness_RunStartIsLegal :
    Config.default.wellFormed ∧ load (.bytes [0x00, 0xA0]) = .ok [(0, 0xA000)] := ⟨by decide, rfl⟩

/-- A legal running state that is not the reset state: for StepKeepsLegal, LegalStateAlwaysSteps,
UnboundedFullyLoadedRunsAreSafe and StepKeepsASafeState. -/
def legalState : State :=
  { oneWord 0xA000 [.symbol a] 0 with cfg := { Config.default with imemUnloaded := .fill 0xE000 } }

theorem witness_legal_state :
    legalState.Legal ∧ legalState.fault = none ∧ legalState.cfg.tapeCapacity = none ∧ legalState.fetchable ∧
    (nextOf (step legalState)).isSome = true := by
  refine ⟨?_, rfl, rfl, .inl ⟨0xE000, rfl⟩, by decide⟩
  exact
    { map_injective := by decide
      memory_canonical := by decide
      pc_twelve_bits := by decide
      head_on_tape := by decide
      counters_fit := by
        intro k h
        cases h
      moves_are_steps := fun _ => by decide
      ir_none_iff := fun _ => by decide
      halted_cause := fun h => by cases h
      failed_cause := fun h => by cases h
      fault_is_not_terminal := fun _ => rfl }

/-- For CountersAndIrAreNeverRead: two different states that agree on what is read. -/
theorem witness_CountersAndIrAreNeverRead :
    State.reset.forgetUnread = ({ State.reset with steps := 5, moves := 3, ir := some 0x2010 } : State).forgetUnread ∧
    State.reset ≠ { State.reset with steps := 5, moves := 3, ir := some 0x2010 } := by decide

end Sys2Proof.Tests
end

section
/-! SUPPORT. What every meaning and every step keeps: one rule per part of the state, read off `exec_next_cases` and
`step_next_cases` through an eliminator for each, and the invariant `State.Legal` through one step. -/

namespace Sys2Proof.Machine

/-! ### The fetch, the counters and the status -/

theorem State.fetches_iff {s : State} {w : Word} : s.fetches w ↔ s.fetchWord = some w := by
  rw [State.fetches, ← pcAddr_toNat]
  cases hr : s.imem.read (pcAddr s.pc).toNat with
  | some v => simp [State.fetchWord_loaded hr]
  | none =>
    rw [State.fetchWord_unloaded hr]
    cases s.cfg.imemUnloaded <;> simp [unloadedWord]

/-- R52: where every fetch finds a word, this one does. -/
theorem State.fetchWord_of_fetchable {s : State} (h : s.fetchable) : ∃ w, s.fetchWord = some w := by
  cases hr : s.imem.read (pcAddr s.pc).toNat with
  | some w => exact ⟨w, State.fetchWord_loaded hr⟩
  | none =>
    obtain ⟨v, hv⟩ | hall := h
    · exact ⟨v, by rw [State.fetchWord_unloaded hr, hv]; rfl⟩
    · exact absurd hr (hall _ (pcAddr s.pc).isLt)

theorem State.fetchable_congr {s t : State} (hcfg : t.cfg = s.cfg) (himem : t.imem = s.imem) :
    t.fetchable ↔ s.fetchable := by
  simp only [State.fetchable, hcfg, himem]

@[simp] theorem countUp_some (k n : Nat) : countUp (some k) n = (n + 1) % 2 ^ k := rfl

theorem State.running_of_not_terminal {s : State} (h : ¬ s.terminal) : s.status = .running := by
  cases hs : s.status with
  | running => rfl
  | halted => exact absurd (.inl hs) h
  | failed => exact absurd (.inr hs) h

/-! ### What a meaning keeps -/

/-- `exec_next_cases` as an eliminator: what holds of each way to answer a next state holds of every next state. -/
theorem exec_next_elim {s : State} {motive : (i : Instr) → (t : State) → exec i s = .next t → Prop}
    (alpha : ∀ x h, motive (.alpha x) (s.declare x) h)
    (compare : ∀ letter blank oring c h, s.tapeRead = some c → s.valid c = true →
      motive (.cmp letter blank oring) (s.setEq (compareFlag s.eq c letter blank oring)) h)
    (invalid : ∀ letter blank oring c h, s.tapeRead = some c → s.valid c = false →
      motive (.cmp letter blank oring) (s.halt .failed) h)
    (taken : ∀ a e h, s.eq = e → motive (.brac a e) (s.jump a) h)
    (notTaken : ∀ a e h, s.eq ≠ e → motive (.brac a e) s h)
    (bra : ∀ a h, motive (.bra a) (s.jump a) h)
    (draw : ∀ letter blank h, motive (.draw letter blank) (s.tapeWrite (drawCell letter blank)) h)
    (grow : ∀ left h, motive (.move left) (s.countMove.grown (moveDir left)) h)
    (shift : ∀ left h, s.countMove.atEdge (moveDir left) = false →
      motive (.move left) (s.countMove.shifted (moveDir left)) h)
    (endRun : ∀ b h, motive (.endRun b) (s.halt (endStatus b)) h)
    (nop : ∀ h, motive .nop s h)
    (i : Instr) (t : State) (h : exec i s = .next t) : motive i t h := by
  rcases exec_next_cases h with ⟨x, rfl, rfl⟩ | ⟨_, _, _, c, rfl, hc, hv, rfl⟩ | ⟨_, _, _, c, rfl, hc, hv, rfl⟩ |
    ⟨a, e, rfl, he, rfl⟩ | ⟨a, e, rfl, he, rfl⟩ | ⟨a, rfl, rfl⟩ | ⟨_, _, _, rfl, -, rfl⟩ | ⟨left, _, rfl, -, -, -, rfl⟩ |
    ⟨left, _, rfl, -, hedge, rfl⟩ | ⟨b, rfl, rfl⟩ | ⟨rfl, rfl⟩
  · exact alpha x h
  · exact compare _ _ _ c h hc hv
  · exact invalid _ _ _ c h hc hv
  · exact taken a e h he
  · exact notTaken a e h he
  · exact bra a h
  · exact draw _ _ h
  · exact grow left h
  · exact shift left h hedge
  · exact endRun b h
  · exact nop h

/-- No meaning writes the parameters, instruction memory (R53), `ir`, `steps` or the fault mark. -/
theorem exec_frame {i : Instr} {s t : State} (h : exec i s = .next t) :
    t.cfg = s.cfg ∧ t.imem = s.imem ∧ t.ir = s.ir ∧ t.steps = s.steps ∧ t.fault = s.fault := by
  cases i, t, h using exec_next_elim <;> simp

/-- The flag is written by CMP only (R28). -/
theorem exec_eq_of_not_cmp {i : Instr} {s t : State} (h : exec i s = .next t)
    (hi : ∀ letter blank oring, i ≠ .cmp letter blank oring) : t.eq = s.eq := by
  cases i, t, h using exec_next_elim with
  | compare letter blank oring => exact absurd rfl (hi letter blank oring)
  | invalid letter blank oring => exact absurd rfl (hi letter blank oring)
  | _ => simp

/-- A meaning leaves `pc` or puts a branch's address there (R150). -/
theorem exec_pc {i : Instr} {s t : State} (h : exec i s = .next t) : t.pc = s.pc ∨ ∃ a, t.pc = addrToPc a := by
  cases i, t, h using exec_next_elim with
  | taken a => exact .inr ⟨a, rfl⟩
  | bra a => exact .inr ⟨a, rfl⟩
  | _ => exact .inl (by simp)

/-- R30, R174: MOVE counts once, and no other meaning writes `moves`. -/
theorem exec_moves {i : Instr} {s t : State} (h : exec i s = .next t) :
    ((∃ left, i = .move left) ∧ t.moves = countUp s.cfg.counterWidth s.moves) ∨
    ((∀ left, i ≠ .move left) ∧ t.moves = s.moves) := by
  cases i, t, h using exec_next_elim with
  | grow left => exact .inl ⟨⟨left, rfl⟩, by simp⟩
  | shift left => exact .inl ⟨⟨left, rfl⟩, by simp⟩
  | _ => exact .inr (by simp)

/-- R36: no meaning takes the head off the tape. -/
theorem exec_head_lt {i : Instr} {s t : State} (hs : s.head < s.tape.length) (h : exec i s = .next t) :
    t.head < t.tape.length := by
  cases i, t, h using exec_next_elim with
  | grow => exact State.head_grown_lt hs
  | shift _ _ hedge => exact State.head_shifted_lt hs hedge
  | _ => simpa using hs

/-- R116, R201: a meaning that changes the status is an END, or a CMP over an undeclared symbol. -/
theorem exec_status {i : Instr} {s t : State} (h : exec i s = .next t) :
    t.status = s.status ∨ (t.status = .halted ∧ i = .endRun true) ∨
    (t.status = .failed ∧ (i = .endRun false ∨ (∃ letter blank oring, i = .cmp letter blank oring) ∧
      ∃ x, t.tapeRead = some (.symbol x) ∧ t.declared x = false)) := by
  cases i, t, h using exec_next_elim with
  | invalid letter blank oring c _ hc hv =>
    obtain ⟨x, rfl, hx⟩ := State.not_valid hv
    exact .inr (.inr ⟨rfl, .inr ⟨⟨letter, blank, oring, rfl⟩, x, hc, hx⟩⟩)
  | endRun b => cases b <;> simp
  | _ => exact .inl (by simp)

/-- With the head on an unbounded tape every instruction completes (R57, R58, R175). -/
theorem exec_completes {s : State} (i : Instr) (hhead : s.head < s.tape.length) (hcap : s.cfg.tapeCapacity = none) :
    ∃ t, exec i s = .next t := by
  cases h : exec i s with
  | next t => exact ⟨t, rfl⟩
  | fault r =>
    obtain ⟨-, left, -, -, hfull⟩ := exec_fault h
    simp [State.tapeFull_unbounded hcap] at hfull
  | refused r =>
    obtain ⟨c, hc⟩ := State.tapeRead_of_lt hhead
    simp [exec_refused h] at hc

theorem exec_fetched_pc_lt {i : Instr} {s t : State} {w : Word} (h : exec i (s.fetched w) = .next t) :
    t.pc.toNat < 4096 := by
  rcases exec_pc h with hpc | ⟨a, hpc⟩ <;> rw [hpc]
  · exact nextPc_lt s.pc
  · exact addrToPc_lt a

/-! ### What a step keeps -/

/-- What a mark and an executed instruction keep, a step keeps. -/
theorem step_keeps {P : State → Prop} {s t : State} (hs : P s) (hraise : s.enabled → ∀ r, P (s.raise r))
    (hexec : s.enabled → ∀ w u, exec (decode s.cfg w) (s.fetched w) = .next u → P u) (h : step s = .next t) : P t := by
  rcases step_next_cases h with ⟨-, -, rfl⟩ | ⟨he, -, rfl⟩ | ⟨w, he, -, hx⟩ | ⟨-, he, -, -, rfl⟩
  · exact hs
  · exact hraise he _
  · exact hexec he w t hx
  · exact hraise he _

/-- R53: no step writes instruction memory, nor the parameters. -/
theorem step_frame {s t : State} (h : step s = .next t) : t.cfg = s.cfg ∧ t.imem = s.imem := by
  refine step_keeps (P := fun u => u.cfg = s.cfg ∧ u.imem = s.imem) ⟨rfl, rfl⟩ (fun _ _ => ⟨rfl, rfl⟩) ?_ h
  intro _ w u hx
  obtain ⟨hcfg, himem, -⟩ := exec_frame hx
  exact ⟨hcfg, himem⟩

/-- R25. -/
theorem step_pc_lt {s t : State} (hs : s.pc.toNat < 4096) (h : step s = .next t) : t.pc.toNat < 4096 :=
  step_keeps (P := fun u => u.pc.toNat < 4096) hs (fun _ _ => hs) (fun _ _ _ => exec_fetched_pc_lt) h

/-- R36. -/
theorem step_head_lt {s t : State} (hs : s.head < s.tape.length) (h : step s = .next t) :
    t.head < t.tape.length :=
  step_keeps (P := fun u => u.head < u.tape.length) hs (fun _ _ => hs)
    (fun _ w _ => exec_head_lt (s := s.fetched w) hs) h

/-- A step without a mark is the meaning of the word fetched. -/
theorem exec_of_step_next {s t : State} {w : Word} (he : s.enabled) (hw : s.fetches w) (h : step s = .next t)
    (hf : t.fault = none) : exec (decode s.cfg w) (s.fetched w) = .next t := by
  rw [step_fetched he (State.fetches_iff.mp hw)] at h
  cases hx : exec (decode s.cfg w) (s.fetched w) with
  | next u => rwa [hx] at h
  | fault r =>
    rw [hx] at h
    cases h
    simp at hf
  | refused r =>
    rw [hx] at h
    cases h

/-- R207: a step that leaves a mark leaves nothing else. -/
theorem eq_raise_of_step_fault {s t : State} (he : s.enabled) (h : step s = .next t) (hf : t.fault ≠ none) :
    ∃ r, t = s.raise r := by
  refine step_keeps (P := fun u => u.fault ≠ none → ∃ r, u = s.raise r) (absurd he.2) (fun _ r _ => ⟨r, rfl⟩) ?_ h hf
  intro _ w u hx hu
  obtain ⟨-, -, -, -, hfault⟩ := exec_frame hx
  exact absurd (hfault.trans he.2) hu

/-- With an unbounded tape and a word behind every fetch, a step answers a state without a mark. -/
theorem step_completes {s : State} (hhead : s.head < s.tape.length) (hf : s.fault = none)
    (hcap : s.cfg.tapeCapacity = none) (hfetch : s.fetchable) : ∃ t, step s = .next t ∧ t.fault = none := by
  by_cases hterm : s.terminal
  · exact ⟨s, step_of_terminal hf hterm, hf⟩
  · have he : s.enabled := ⟨State.running_of_not_terminal hterm, hf⟩
    obtain ⟨w, hw⟩ := State.fetchWord_of_fetchable hfetch
    obtain ⟨t, ht⟩ := exec_completes (s := s.fetched w) (decode s.cfg w) hhead hcap
    obtain ⟨-, -, -, -, hfault⟩ := exec_frame ht
    exact ⟨t, by rw [step_fetched he hw, ht]; rfl, hfault.trans hf⟩

/-! ### Legal states -/

theorem State.legal_raise {s : State} (hs : s.Legal) (he : s.enabled) (r : Fault) : (s.raise r).Legal :=
  { hs with fault_is_not_terminal := fun _ => he.1 }

/-- The invariant through one executed instruction: the meaning runs on the fetched state, whose `ir` holds the word and
whose `steps` is counted. -/
theorem State.legal_of_exec {s t : State} {w : Word} (hs : s.Legal) (he : s.enabled)
    (h : exec (decode s.cfg w) (s.fetched w) = .next t) : t.Legal := by
  obtain ⟨hcfg, himem, hir, hsteps, hfault⟩ := exec_frame h
  simp only [State.fetched_cfg, State.fetched_imem, State.fetched_ir, State.fetched_steps, State.fetched_fault]
    at hcfg himem hir hsteps hfault
  have hmoves : t.moves = countUp s.cfg.counterWidth s.moves ∨ t.moves = s.moves :=
    (exec_moves h).imp And.right And.right
  have hstatus := exec_status h
  simp only [State.fetched_status, he.1] at hstatus
  exact
    { map_injective := hcfg ▸ hs.map_injective
      memory_canonical := himem ▸ hs.memory_canonical
      pc_twelve_bits := exec_fetched_pc_lt h
      head_on_tape := exec_head_lt (s := s.fetched w) hs.head_on_tape h
      counters_fit := by
        intro k hk
        rw [hcfg] at hk
        rw [hk] at hsteps hmoves
        refine ⟨hsteps ▸ countUp_lt k _, ?_⟩
        rcases hmoves with hm | hm <;> rw [hm]
        · exact countUp_lt k _
        · exact (hs.counters_fit k hk).2
      moves_are_steps := by
        intro hk
        rw [hcfg] at hk
        have hle := hs.moves_are_steps hk
        simp only [hk, countUp_none] at hsteps hmoves
        omega
      ir_none_iff := by
        intro hk
        rw [hcfg] at hk
        simp [hir, hsteps, hk]
      halted_cause := fun ht => ⟨w, hir, by simpa [ht, hcfg] using hstatus⟩
      failed_cause := fun ht => ⟨w, hir, by simpa [ht, hcfg] using hstatus⟩
      fault_is_not_terminal := fun hf => absurd (hfault.trans he.2) hf }

theorem State.legal_of_step {s t : State} (hs : s.Legal) (h : step s = .next t) : t.Legal :=
  step_keeps hs (fun he => State.legal_raise hs he) (fun he _ _ => State.legal_of_exec hs he) h

end Sys2Proof.Machine
end

section
/-! SUPPORT. Answers seen through a view of the next state (`mapNext`): what a meaning and a step do not read. -/

namespace Sys2Proof.Machine

@[simp] theorem mapNext_next (f : State → State) (t : State) : mapNext f (.next t) = .next (f t) := rfl
@[simp] theorem mapNext_fault (f : State → State) (r : Fault) : mapNext f (.fault r) = .fault r := rfl
@[simp] theorem mapNext_refused (f : State → State) (r : Refusal) : mapNext f (.refused r) = .refused r := rfl

theorem mapNext_eq_next {f : State → State} {o : Host.Outcome State Fault Refusal} {u : State} :
    mapNext f o = .next u ↔ ∃ t, o = .next t ∧ f t = u := by
  cases o <;> simp

theorem mapNext_eq_fault {f : State → State} {o : Host.Outcome State Fault Refusal} {r : Fault} :
    mapNext f o = .fault r ↔ o = .fault r := by
  cases o <;> simp

theorem mapNext_eq_refused {f : State → State} {o : Host.Outcome State Fault Refusal} {r : Refusal} :
    mapNext f o = .refused r ↔ o = .refused r := by
  cases o <;> simp

/-! ### The instructions that read the tape -/

theorem exec_cmp_off_tape {s : State} (h : s.tapeRead = none) (letter : Symbol) (blank oring : Bool) :
    exec (.cmp letter blank oring) s = .refused .headOutsideTape := by simp [exec, execCmp, h]

theorem exec_draw_off_tape {s : State} (h : s.tapeRead = none) (letter : Symbol) (blank : Bool) :
    exec (.draw letter blank) s = .refused .headOutsideTape := by simp [exec, execDraw, h]

theorem exec_move_off_tape {s : State} (h : s.tapeRead = none) (left : Bool) :
    exec (.move left) s = .refused .headOutsideTape := by simp [exec, execMove, h]

section
variable {f : State → State} {s s' : State} (hread : s.tapeRead = s'.tapeRead)
include hread

/-- CMP looks alike in two states that see the same cell, when its validity and both results do. -/
theorem mapNext_exec_cmp_congr {letter : Symbol} {blank oring : Bool} (hvalid : ∀ c, s.valid c = s'.valid c)
    (hset : ∀ c, f (s.setEq (compareFlag s.eq c letter blank oring)) =
      f (s'.setEq (compareFlag s'.eq c letter blank oring)))
    (hhalt : f (s.halt .failed) = f (s'.halt .failed)) :
    mapNext f (exec (.cmp letter blank oring) s) = mapNext f (exec (.cmp letter blank oring) s') := by
  cases hc : s.tapeRead with
  | none => rw [exec_cmp_off_tape hc, exec_cmp_off_tape (hread ▸ hc)]
  | some c =>
    rw [exec_cmp hc, exec_cmp (hread ▸ hc), ← hvalid c]
    split
    · exact congrArg Host.Outcome.next (hset c)
    · exact congrArg Host.Outcome.next hhalt

theorem mapNext_exec_draw_congr {letter : Symbol} {blank : Bool} (hwrite : ∀ c, f (s.tapeWrite c) = f (s'.tapeWrite c)) :
    mapNext f (exec (.draw letter blank) s) = mapNext f (exec (.draw letter blank) s') := by
  cases hc : s.tapeRead with
  | none => rw [exec_draw_off_tape hc, exec_draw_off_tape (hread ▸ hc)]
  | some c =>
    rw [exec_draw hc, exec_draw (hread ▸ hc)]
    exact congrArg Host.Outcome.next (hwrite _)

/-- MOVE looks alike when the checks of R175 and R178 and both results do. -/
theorem mapNext_exec_move_congr {left : Bool}
    (hedge : s.countMove.atEdge (moveDir left) = s'.countMove.atEdge (moveDir left))
    (hfull : s.countMove.tapeFull = s'.countMove.tapeFull)
    (hgrown : f (s.countMove.grown (moveDir left)) = f (s'.countMove.grown (moveDir left)))
    (hshifted : f (s.countMove.shifted (moveDir left)) = f (s'.countMove.shifted (moveDir left))) :
    mapNext f (exec (.move left) s) = mapNext f (exec (.move left) s') := by
  cases hc : s.tapeRead with
  | none => rw [exec_move_off_tape hc, exec_move_off_tape (hread ▸ hc)]
  | some c =>
    rw [exec_move hc, exec_move (hread ▸ hc), State.tapeMove, State.tapeMove, ← hedge, ← hfull]
    split
    · split
      · rfl
      · exact congrArg Host.Outcome.next hgrown
    · exact congrArg Host.Outcome.next hshifted

end

/-! ### The equality flag -/

theorem State.valid_setEq (s : State) (v : Bool) (c : Cell) : (s.setEq v).valid c = s.valid c := by cases c <;> rfl

/-- What a meaning does apart from the flag depends on the flag for BRAC alone (R28). -/
theorem mapNext_exec_setEq {i : Instr} (hi : ∀ a e, i ≠ .brac a e) (s : State) (v : Bool) :
    mapNext (fun t => t.setEq false) (exec i (s.setEq v)) = mapNext (fun t => t.setEq false) (exec i s) := by
  cases i with
  | alpha letter => rfl
  | cmp letter blank oring => refine mapNext_exec_cmp_congr ?_ (s.valid_setEq v) (fun _ => ?_) ?_ <;> rfl
  | brac a e => exact absurd rfl (hi a e)
  | bra a => rfl
  | draw letter blank => refine mapNext_exec_draw_congr ?_ fun _ => ?_ <;> rfl
  | move left => cases left <;> refine mapNext_exec_move_congr ?_ ?_ ?_ ?_ ?_ <;> rfl
  | endRun halt => rfl
  | nop => rfl

/-- A CMP without `oring` that does not fail overwrites the flag (R135). -/
theorem exec_cmp_setEq {s t : State} {letter : Symbol} {blank : Bool}
    (h : exec (.cmp letter blank false) s = .next t) (ht : t.status ≠ .failed) (v : Bool) :
    exec (.cmp letter blank false) (s.setEq v) = .next t := by
  cases hc : s.tapeRead with
  | none => simp [exec_cmp_off_tape hc] at h
  | some c =>
    rw [exec_cmp hc] at h
    rw [exec_cmp (s := s.setEq v) hc, State.valid_setEq]
    cases hv : s.valid c <;> rw [hv] at h <;> cases h
    · exact absurd rfl ht
    · rfl

/-! ### The counters and `ir` -/

theorem State.valid_forgetUnread (s : State) (c : Cell) : s.forgetUnread.valid c = s.valid c := by cases c <;> rfl

/-- No meaning reads the counters, their width or `ir` (R26, R27, R31). -/
theorem mapNext_exec_forgetUnread (i : Instr) (s : State) :
    mapNext State.forgetUnread (exec i s.forgetUnread) = mapNext State.forgetUnread (exec i s) := by
  cases i with
  | alpha letter => rfl
  | cmp letter blank oring => refine mapNext_exec_cmp_congr ?_ s.valid_forgetUnread (fun _ => ?_) ?_ <;> rfl
  | brac a e =>
    rw [exec_brac, exec_brac, show s.forgetUnread.eq = s.eq from rfl]
    split <;> rfl
  | bra a => rfl
  | draw letter blank => refine mapNext_exec_draw_congr ?_ fun _ => ?_ <;> rfl
  | move left => cases left <;> refine mapNext_exec_move_congr ?_ ?_ ?_ ?_ ?_ <;> rfl
  | endRun halt => rfl
  | nop => rfl

theorem mapNext_exec_congr {s s' : State} (h : s.forgetUnread = s'.forgetUnread) (i : Instr) :
    mapNext State.forgetUnread (exec i s) = mapNext State.forgetUnread (exec i s') := by
  rw [← mapNext_exec_forgetUnread i s, h, mapNext_exec_forgetUnread]

theorem mapNext_commit (s : State) (o : Host.Outcome State Fault Refusal) :
    mapNext State.forgetUnread (commit s o) = commit s.forgetUnread (mapNext State.forgetUnread o) := by
  cases o <;> rfl

/-- No step reads the counters, their width or `ir`. -/
theorem mapNext_step_forgetUnread (s : State) :
    mapNext State.forgetUnread (step s.forgetUnread) = mapNext State.forgetUnread (step s) := by
  cases hf : s.fault with
  | some r => rw [step_of_fault hf, step_of_fault (s := s.forgetUnread) hf]
  | none =>
    by_cases hterm : s.terminal
    · rw [step_of_terminal hf hterm, step_of_terminal (s := s.forgetUnread) hf hterm]
      rfl
    · have he : s.enabled := ⟨State.running_of_not_terminal hterm, hf⟩
      cases hw : s.fetchWord with
      | none =>
        rw [step_unloaded he hw, step_unloaded (s := s.forgetUnread) he hw]
        rfl
      | some w =>
        rw [step_fetched he hw, step_fetched (s := s.forgetUnread) he hw, mapNext_commit, mapNext_commit,
          mapNext_exec_congr (s := s.forgetUnread.fetched w) (s' := s.fetched w) rfl]
        rfl

theorem mapNext_step_congr {s s' : State} (h : s.forgetUnread = s'.forgetUnread) :
    mapNext State.forgetUnread (step s) = mapNext State.forgetUnread (step s') := by
  rw [← mapNext_step_forgetUnread s, h, mapNext_step_forgetUnread]

end Sys2Proof.Machine
end

section
/-! SUPPORT. The registry that `ALPHABET_SEED = PreScan` starts a run with (D16, log entry 12). -/

namespace Sys2Proof.Machine

/-- A word declares its letter when it decodes to ALPHA, and nothing else. -/
theorem getLsbD_preScan_cons (cfg : Config) (c : Nat × Word) (m : Memory) (x : Symbol) :
    (preScan cfg (c :: m)).getLsbD x.toNat = true ↔
      decode cfg c.2 = .alpha x ∨ (preScan cfg m).getLsbD x.toNat = true := by
  obtain ⟨a, w⟩ := c
  cases hd : decode cfg w with
  | alpha letter =>
    have hletter : letter.toNat < 256 := letter.isLt
    simp [preScan, hd, hletter, BitVec.toNat_inj, or_comm]
  | _ => simp [preScan, hd]

theorem getLsbD_preScan (cfg : Config) (m : Memory) (x : Symbol) :
    (preScan cfg m).getLsbD x.toNat = true ↔ ∃ c ∈ m, decode cfg c.2 = .alpha x := by
  induction m with
  | nil => simp [preScan]
  | cons c m ih => rw [getLsbD_preScan_cons, ih, List.exists_mem_cons_iff]

theorem startRun_alpha_of_preScan {cfg : Config} (h : cfg.alphabetSeed = .preScan) (m : Memory) (tape : List Cell) :
    (startRun cfg m tape).alpha = preScan cfg m := by
  simp [startRun, seedAlphabet, h]

end Sys2Proof.Machine
end

section
/-! The statements of 10_state.md, settled. -/

namespace Sys2Proof.Machine

/-- Settles O49: by what one step can answer; the one long case is an executed instruction, `State.legal_of_exec`. -/
theorem stepKeepsLegal : Obligations.StepKeepsLegal := fun _ _ => State.legal_of_step

/-- Settles O52: the step completes, legality is kept, and the parameters and the image are never written. -/
theorem stepKeepsASafeState : Obligations.StepKeepsASafeState := by
  intro s hs hf hcap hfetch
  obtain ⟨t, ht, htf⟩ := step_completes hs.head_on_tape hf hcap hfetch
  obtain ⟨hcfg, himem⟩ := step_frame ht
  exact ⟨t, ht, State.legal_of_step hs ht, htf, hcfg ▸ hcap, (State.fetchable_congr hcfg himem).mpr hfetch⟩

/-- Settles O15: `getLsbD_preScan`, by induction on the image's words. -/
theorem preScanDeclaresTheLettersOfTheImage : Obligations.PreScanDeclaresTheLettersOfTheImage := by
  intro cfg m tape x hseed
  rw [startRun_alpha_of_preScan hseed, getLsbD_preScan]

/-- Settles O22: a step without a mark is one meaning, and `exec_moves` says what it counts; a marked state keeps `moves`. -/
theorem movesCountsExactlyTheMoves : Obligations.MovesCountsExactlyTheMoves := by
  refine ⟨fun s t w he hw h hf => ?_, fun s t he h hf => ?_, fun _ _ _ => rfl⟩
  · rcases exec_moves (exec_of_step_next he hw h hf) with ⟨⟨left, hi⟩, hm⟩ | ⟨hi, hm⟩
    · refine ⟨fun _ _ => ⟨fun hn => ?_, fun n hn => ?_⟩, fun hno => absurd hi (hno left)⟩ <;> simpa [hn] using hm
    · exact ⟨fun left hl => absurd hl (hi left), fun _ => hm⟩
  · obtain ⟨r, rfl⟩ := eq_raise_of_step_fault he h hf
    rfl

/-- Settles O31: who writes the flag, who reads it, and its start, each a lemma about one meaning. -/
theorem equalityFlagIsCmpsAndBracs : Obligations.EqualityFlagIsCmpsAndBracs := by
  refine ⟨fun i s t h hi => exec_eq_of_not_cmp h hi, fun i s v hi => mapNext_exec_setEq hi s v, ?_,
    fun _ _ _ => rfl, rfl⟩
  intro letter blank v s t h hstatus hs
  exact exec_cmp_setEq h (hstatus ▸ hs) v

/-- Settles O45: `pc` below 4096 holds at the start and is kept by every step. -/
theorem pcTopBitsAreZeroThroughoutARun : Obligations.PcTopBitsAreZeroThroughoutARun := by
  intro cfg m tape k t h
  have hstart : (startRun cfg m tape).pc.toNat < 4096 := by simp [startRun]
  exact Nat.div_eq_of_lt (runSteps_induct (P := fun s => s.pc.toNat < 4096) (fun _ _ => step_pc_lt) hstart h)

/-- Settles O46: a line's tape is not empty, so its first index is on it, and every step keeps the head on the tape. -/
theorem headIsOnTheTapeThroughoutARun : Obligations.HeadIsOnTheTapeThroughoutARun := by
  intro cfg m line
  exact ⟨rfl, fun k t h => runSteps_induct (P := fun s => s.head < s.tape.length) (fun _ _ => step_head_lt)
    (tapeOfLine_length_pos line) h⟩

/-- Settles O53, by induction on the number of steps: alike states step alike, to alike states. -/
theorem countersAndIrAreNeverRead : Obligations.CountersAndIrAreNeverRead := by
  intro k
  induction k with
  | zero => exact fun s s' h => congrArg Host.Outcome.next h
  | succ k ih =>
    intro s s' h
    have hstep := mapNext_step_congr h
    rw [runSteps_succ, runSteps_succ]
    cases hs : step s with
    | next t =>
      rw [hs] at hstep
      obtain ⟨t', ht', hview⟩ := mapNext_eq_next.mp hstep.symm
      rw [ht']
      exact ih t t' hview.symm
    | fault r =>
      rw [hs] at hstep
      rw [mapNext_eq_fault.mp hstep.symm]
    | refused r =>
      rw [hs] at hstep
      rw [mapNext_eq_refused.mp hstep.symm]

end Sys2Proof.Machine
end

section
/-! SUPPORT. Progress of a step with the head on the tape, and what runs and a session's moves leave unchanged. -/

namespace Sys2Proof.Machine

/-! ### Progress -/

/-- With the head on the tape no instruction is refused (R57, R58, R175). -/
theorem exec_next_or_fault {s : State} (i : Instr) (hhead : s.head < s.tape.length) :
    (∃ t, exec i s = .next t) ∨ ∃ r, exec i s = .fault r := by
  cases h : exec i s with
  | next t => exact .inl ⟨t, rfl⟩
  | fault r => exact .inr ⟨r, rfl⟩
  | refused r =>
    obtain ⟨c, hc⟩ := State.tapeRead_of_lt hhead
    simp [exec_refused h] at hc

/-- With the head on the tape every step from an unmarked state answers a next state: a `ModelFault` of the fetch or of the
meaning is a next state too, with the mark (R207). -/
theorem step_next_of_head_lt {s : State} (hhead : s.head < s.tape.length) (hf : s.fault = none) :
    ∃ t, step s = .next t := by
  by_cases hterm : s.terminal
  · exact ⟨s, step_of_terminal hf hterm⟩
  · have he : s.enabled := ⟨State.running_of_not_terminal hterm, hf⟩
    cases hw : s.fetchWord with
    | none => exact ⟨_, step_unloaded he hw⟩
    | some w =>
      rw [step_fetched he hw]
      rcases exec_next_or_fault (s := s.fetched w) (decode s.cfg w) hhead with ⟨t, ht⟩ | ⟨r, hr⟩
      · exact ⟨t, by rw [ht]; rfl⟩
      · exact ⟨s.raise r, by rw [hr]; rfl⟩

/-! ### Frames of a run and of a session's moves -/

/-- R53: no run writes instruction memory, nor the parameters. -/
theorem runSteps_frame {k : Nat} {s t : State} (h : runSteps k s = .next t) : t.cfg = s.cfg ∧ t.imem = s.imem := by
  refine runSteps_induct (P := fun u => u.cfg = s.cfg ∧ u.imem = s.imem) ?_ ⟨rfl, rfl⟩ h
  rintro u v ⟨hcfg, himem⟩ huv
  obtain ⟨hcfg', himem'⟩ := step_frame huv
  exact ⟨hcfg'.trans hcfg, himem'.trans himem⟩

/-- R67: only a load changes the session's image; no move of the host's changes its parameters. -/
theorem hostMove_frame {mv : HostMove} (hmv : ∀ f, mv ≠ .load f) (h : Session) :
    (hostMove h mv).1.cfg = h.cfg ∧ (hostMove h mv).1.image = h.image := by
  cases mv with
  | load f => exact absurd rfl (hmv f)
  | run line =>
    simp only [hostMove]
    split <;> exact ⟨rfl, rfl⟩
  | observe => exact ⟨rfl, rfl⟩
  | abandon => exact ⟨rfl, rfl⟩

/-- The core's move changes the session's run and nothing else. -/
theorem coreMove_frame (h : Session) : (coreMove h).1.cfg = h.cfg ∧ (coreMove h).1.image = h.image := by
  unfold coreMove
  split
  case h_1 => exact ⟨rfl, rfl⟩
  case h_2 s _ =>
    cases step s with
    | fault r => exact ⟨rfl, rfl⟩
    | refused r => exact ⟨rfl, rfl⟩
    | next t =>
      dsimp only
      cases outcomeOf t <;> exact ⟨rfl, rfl⟩

end Sys2Proof.Machine
end

section
/-! The statements of 20_memory.md, settled. -/

namespace Sys2Proof.Machine

/-- Settles O44: the frames of a run, of the host's moves other than a load, and of the core's move. -/
theorem instructionMemoryIsReadOnly : Obligations.InstructionMemoryIsReadOnly :=
  ⟨fun _ _ _ h => (runSteps_frame h).symm, fun h _ hmv => (hostMove_frame hmv h).2, fun h => (coreMove_frame h).2⟩

/-- Settles O50: of legality only the head on the tape is needed, and then nothing is refused. -/
theorem legalStateAlwaysSteps : Obligations.LegalStateAlwaysSteps := fun _ hs hf =>
  step_next_of_head_lt hs.head_on_tape hf

/-- Settles O51, by induction on the number of steps: a safe state steps to a safe state (`stepKeepsASafeState`). -/
theorem unboundedFullyLoadedRunsAreSafe : Obligations.UnboundedFullyLoadedRunsAreSafe := by
  intro s hs hf hcap hfetch k
  induction k generalizing s with
  | zero => exact ⟨s, runSteps_zero s, hf⟩
  | succ k ih =>
    obtain ⟨t, ht, htl, htf, htcap, htfetch⟩ := stepKeepsASafeState s hs hf hcap hfetch
    rw [runSteps_next ht]
    exact ih t htl htf htcap htfetch

end Sys2Proof.Machine
end

section
/-! SUPPORT. Fields of a word: read as numbers, placed and read back, and under a mask that clears other bits. -/

namespace Sys2Proof

/-! ### A field and a bit as numbers (R9: bit 0 is the least significant) -/

theorem extractLsb'_eq_iff {lo n : Nat} {w : Word} {v : BitVec n} :
    w.extractLsb' lo n = v ↔ w.toNat / 2 ^ lo % 2 ^ n = v.toNat := by
  rw [← BitVec.toNat_inj, BitVec.extractLsb'_toNat, Nat.shiftRight_eq_div_pow]

theorem getLsbD_eq_iff {i : Nat} {w : Word} {b : Bool} : w.getLsbD i = b ↔ w.toNat / 2 ^ i % 2 = b.toNat := by
  rw [← Nat.toNat_testBit, ← BitVec.testBit_toNat]
  cases w.toNat.testBit i <;> cases b <;> decide

theorem opcodeField_eq_iff {w : Word} {v : BitVec 3} : opcodeField w = v ↔ w.toNat / 8192 = v.toNat := by
  rw [opcodeField, extractLsb'_eq_iff]
  omega

/-! ### A field placed in a word -/

theorem extractLsb'_fieldAt {lo n : Nat} (h : lo + n ≤ 16) (v : BitVec n) : (fieldAt lo v).extractLsb' lo n = v := by
  apply BitVec.eq_of_getLsbD_eq
  intro i hi
  have hlt : lo + i < 16 := by omega
  simp [hi, hlt]

theorem extractLsb'_fieldAt_disjoint {lo n lo' n' : Nat} (h : lo + n ≤ lo' ∨ lo' + n' ≤ lo) (v : BitVec n') :
    (fieldAt lo' v).extractLsb' lo n = 0 := by
  apply BitVec.eq_of_getLsbD_eq
  intro i hi
  rcases h with h | h
  · have hlt : ¬ lo' ≤ lo + i := by omega
    simp [hlt]
  · have hge : v.getLsbD (lo + i - lo') = false := BitVec.getLsbD_of_ge _ _ (by omega)
    simp [hge]

theorem extractLsb'_bitAt_disjoint {lo n i : Nat} (h : lo + n ≤ i ∨ i < lo) (b : Bool) :
    (bitAt i b).extractLsb' lo n = 0 := extractLsb'_fieldAt_disjoint (by omega) _

/-- A field read and placed again at its own bits: the word with every other bit 0. -/
theorem fieldAt_extractLsb' (lo n : Nat) (w : Word) :
    fieldAt lo (w.extractLsb' lo n) = w &&& fieldAt lo (BitVec.allOnes n) := by
  apply BitVec.eq_of_getLsbD_eq
  intro i hi
  by_cases hlo : lo ≤ i
  · simp [hi, hlo, Bool.and_comm]
  · simp [hi, hlo]

theorem bitAt_getLsbD (i : Nat) (w : Word) : bitAt i (w.getLsbD i) = w &&& bitAt i true := by
  apply BitVec.eq_of_getLsbD_eq
  intro j hj
  by_cases hji : j = i
  · subst hji
    simp [hj]
  · simp [hj, hji]

/-! ### A field under a mask that keeps its bits -/

theorem extractLsb'_and_of_kept {lo n : Nat} {k : Word} (h : k.extractLsb' lo n = BitVec.allOnes n) (w : Word) :
    (w &&& k).extractLsb' lo n = w.extractLsb' lo n := by
  rw [BitVec.extractLsb'_and, h, BitVec.and_allOnes]

theorem getLsbD_and_of_kept {i : Nat} {k : Word} (h : k.getLsbD i = true) (w : Word) :
    (w &&& k).getLsbD i = w.getLsbD i := by
  rw [BitVec.getLsbD_and, h, Bool.and_true]

/-- Words that differ outside a mask only are one word under it. -/
theorem and_eq_and_of_xor {w w' k : Word} (h : (w ^^^ w') &&& k = 0) : w &&& k = w' &&& k := by
  refine BitVec.xor_eq_zero_iff.mp (Eq.trans ?_ h)
  apply BitVec.eq_of_getLsbD_eq
  intro i _
  simp only [BitVec.getLsbD_xor, BitVec.getLsbD_and, Bool.and_xor_distrib_right]

theorem and_not_eq_self_iff {w m : Word} : w &&& ~~~m = w ↔ w &&& m = 0 := by
  constructor
  · intro h
    rw [← h, BitVec.and_assoc, BitVec.and_comm (~~~m), BitVec.and_not_self]
    exact BitVec.and_zero
  · intro h
    calc w &&& ~~~m = w &&& m ||| w &&& ~~~m := by rw [h]; exact BitVec.zero_or.symm
      _ = w &&& BitVec.allOnes 16 := by rw [← BitVec.and_or_distrib_left, BitVec.or_not_self]
      _ = w := BitVec.and_allOnes

end Sys2Proof
end

section
/-! SUPPORT. The decoder and the encoder by opcode (R95, R96 of 30_encoding.md): `Instr.ofOpcode` separates which opcode a
word has, which the map decides, from how its fields are read, which the packing decides. -/

namespace Sys2Proof

/-! ### The opcode map -/

theorem OpcodeMap.opcodeOf_eq_none_iff {m : OpcodeMap} {v : BitVec 3} : m.opcodeOf v = none ↔ ∀ o, m.value o ≠ v := by
  simp [OpcodeMap.opcodeOf, List.find?_eq_none, Opcode.mem_all]

/-- Seven different values and two more would be nine: an injective map leaves one value only (R92). -/
theorem OpcodeMap.opcodeOf_eq_none_iff_unassigned {m : OpcodeMap} (h : m.wellFormed) {v : BitVec 3} :
    m.opcodeOf v = none ↔ v = m.unassigned := by
  refine ⟨fun hv => ?_, fun hv => hv ▸ m.opcodeOf_unassigned⟩
  by_contra hne
  have hv' := OpcodeMap.opcodeOf_eq_none_iff.mp hv
  have hu := OpcodeMap.opcodeOf_eq_none_iff.mp m.opcodeOf_unassigned
  have hnodup : (v :: m.unassigned :: Opcode.all.map m.value).Nodup := by
    simp only [List.nodup_cons, List.mem_cons, List.mem_map, not_or, not_exists, not_and]
    exact ⟨⟨hne, fun o _ => hv' o⟩, fun o _ => hu o, h⟩
  exact absurd hnodup.length_le_card (show ¬ 9 ≤ 8 by decide)

/-- The spec's default map (decision D1) is injective. -/
theorem defaultConfig_wellFormed : Config.default.wellFormed := by decide

/-! ### Decoding by opcode -/

/-- The instruction with this opcode (`none` is NOP) and the fields that `w` holds under the packing `p`. -/
def Instr.ofOpcode (p : FieldPacking) (w : Word) : Option Opcode → Instr
  | some .alpha => .alpha (letterField p w)
  | some .cmp => .cmp (letterField p w) (blankField p w) (oringField p w)
  | some .brac => .brac (addrField p w) (polarityField p w)
  | some .bra => .bra (addrField p w)
  | some .draw => .draw (letterField p w) (blankField p w)
  | some .move => .move (flagField p w)
  | some .endRun => .endRun (flagField p w)
  | none => .nop

theorem decode_eq_ofOpcode (cfg : Config) (w : Word) :
    decode cfg w = .ofOpcode cfg.fieldPacking w (cfg.opcodeMap.opcodeOf (opcodeField w)) := by
  unfold decode
  split <;> simp only [*, Instr.ofOpcode]

@[simp] theorem Instr.opcode_ofOpcode (p : FieldPacking) (w : Word) (o : Option Opcode) :
    (Instr.ofOpcode p w o).opcode = o := by
  rcases o with _ | o
  · rfl
  · cases o <;> rfl

theorem Instr.ofOpcode_eq_nop_iff {p : FieldPacking} {w : Word} {o : Option Opcode} :
    Instr.ofOpcode p w o = .nop ↔ o = none := by
  refine ⟨fun h => ?_, fun h => h ▸ rfl⟩
  have hop := congrArg Instr.opcode h
  rwa [Instr.opcode_ofOpcode] at hop

theorem decode_of_value {cfg : Config} {w : Word} (h : cfg.wellFormed) (o : Opcode)
    (ho : w.toNat / 8192 = (cfg.opcodeMap.value o).toNat) : decode cfg w = .ofOpcode cfg.fieldPacking w (some o) := by
  rw [decode_eq_ofOpcode, opcodeField_eq_iff.mpr ho, OpcodeMap.opcodeOf_value h]

/-- R94: a word with a value that the map assigns to no opcode is NOP. -/
theorem decode_of_no_value {cfg : Config} {w : Word} {v : BitVec 3} (hv : ∀ o, cfg.opcodeMap.value o ≠ v)
    (hw : w.toNat / 8192 = v.toNat) : decode cfg w = .nop := by
  rw [decode_eq_ofOpcode, opcodeField_eq_iff.mpr hw, OpcodeMap.opcodeOf_eq_none_iff.mpr hv, Instr.ofOpcode]

theorem decode_eq_nop_iff {cfg : Config} {w : Word} (h : cfg.wellFormed) :
    decode cfg w = .nop ↔ w.toNat / 8192 = cfg.opcodeMap.unassigned.toNat := by
  rw [decode_eq_ofOpcode, Instr.ofOpcode_eq_nop_iff, OpcodeMap.opcodeOf_eq_none_iff_unassigned h, opcodeField_eq_iff]

/-! ### Decoding an encoded instruction -/

/-- The fields of a canonical word are the instruction's operands, whatever stands in bits 15..13: each field reads itself
back (`extractLsb'_fieldAt`), and every other part of the word lies outside its bits. -/
theorem Instr.ofOpcode_fieldBits (p : FieldPacking) (v : BitVec 3) (i : Instr) :
    Instr.ofOpcode p (fieldAt 13 v ||| i.fieldBits p) i.opcode = i := by
  cases p <;> cases i <;>
    simp [Instr.opcode, Instr.ofOpcode, Instr.fieldBits, letterField, addrField, blankField, oringField, polarityField,
      flagField, BitVec.extractLsb'_or, extractLsb'_fieldAt, extractLsb'_fieldAt_disjoint, extractLsb'_bitAt_disjoint]

/-- The first law of R96. -/
theorem decode_encode {cfg : Config} (h : cfg.wellFormed) (i : Instr) : decode cfg (encode cfg i) = i := by
  rw [decode_eq_ofOpcode, opcodeOf_encode h, encode, Instr.ofOpcode_fieldBits]

/-! ### Unused bits -/

/-- No unused bit is a bit of the opcode (R81, R91). -/
theorem opcodeField_clearUnused (cfg : Config) (w x : Word) :
    opcodeField (x &&& ~~~unusedMask cfg w) = opcodeField x := by
  refine extractLsb'_and_of_kept ?_ x
  unfold unusedMask
  split <;> rfl

/-- No unused bit is a bit of a field: under each format the bits outside the mask hold every field whole. -/
theorem Instr.ofOpcode_clearUnused (cfg : Config) (w x : Word) :
    Instr.ofOpcode cfg.fieldPacking (x &&& ~~~unusedMask cfg w) (cfg.opcodeMap.opcodeOf (opcodeField w)) =
      Instr.ofOpcode cfg.fieldPacking x (cfg.opcodeMap.opcodeOf (opcodeField w)) := by
  unfold unusedMask
  split <;>
    simp (disch := decide) only [*, Instr.ofOpcode, letterField, addrField, blankField, oringField, polarityField,
      flagField, extractLsb'_and_of_kept, getLsbD_and_of_kept]

/-- R90: the decoder ignores unused bits. -/
theorem decode_congr_of_unused {cfg : Config} {w w' : Word} (h : (w ^^^ w') &&& ~~~unusedMask cfg w = 0) :
    decode cfg w = decode cfg w' := by
  have hclear := and_eq_and_of_xor h
  have hop : opcodeField w' = opcodeField w := by
    rw [← opcodeField_clearUnused cfg w w', ← hclear, opcodeField_clearUnused]
  rw [decode_eq_ofOpcode, decode_eq_ofOpcode, hop, ← Instr.ofOpcode_clearUnused cfg w w, hclear,
    Instr.ofOpcode_clearUnused]

/-! ### Encoding a decoded word -/

theorem opcodeValue_decode {cfg : Config} (h : cfg.wellFormed) (w : Word) :
    (decode cfg w).opcodeValue cfg.opcodeMap = opcodeField w := by
  rw [decode_eq_ofOpcode]
  cases ho : cfg.opcodeMap.opcodeOf (opcodeField w) with
  | none => exact ((OpcodeMap.opcodeOf_eq_none_iff_unassigned h).mp ho).symm
  | some o =>
    rw [← OpcodeMap.value_of_opcodeOf ho]
    cases o <;> rfl

/-- The opcode and the fields of a word, placed again, are the word with its unused bits 0: each field keeps its own bits
(`fieldAt_extractLsb'`), and these are the bits outside the mask. -/
theorem fieldAt_or_fieldBits_decode (cfg : Config) (w : Word) :
    fieldAt 13 (opcodeField w) ||| (decode cfg w).fieldBits cfg.fieldPacking = w &&& ~~~unusedMask cfg w := by
  rw [decode_eq_ofOpcode]
  unfold unusedMask
  split <;>
    simp only [*, Instr.ofOpcode, Instr.fieldBits] <;>
    simp only [letterField, addrField, blankField, oringField, polarityField, flagField, opcodeField,
      fieldAt_extractLsb', bitAt_getLsbD, ← BitVec.and_or_distrib_left, BitVec.ofNat_eq_ofNat, BitVec.or_zero] <;>
    rfl

/-- Re-encoding a word clears its unused bits (conflict C2). -/
theorem encode_decode {cfg : Config} (h : cfg.wellFormed) (w : Word) :
    encode cfg (decode cfg w) = w &&& ~~~unusedMask cfg w := by
  rw [encode, opcodeValue_decode h, fieldAt_or_fieldBits_decode]

/-- The second law of R96. -/
theorem encode_decode_eq_self_iff {cfg : Config} (h : cfg.wellFormed) (w : Word) :
    encode cfg (decode cfg w) = w ↔ canonical cfg w := by
  rw [encode_decode h, and_not_eq_self_iff]

theorem canonical_encode {cfg : Config} (h : cfg.wellFormed) (i : Instr) : canonical cfg (encode cfg i) := by
  rw [← encode_decode_eq_self_iff h, decode_encode h]

end Sys2Proof
end

section
/-! SUPPORT. What executing a fetched word keeps of the word: `ir`, and nothing else but what its decoding does (R90). -/

namespace Sys2Proof.Machine

/-- A state without what shows which word was fetched: `ir` and instruction memory. -/
def State.withoutWord (s : State) : State := { s with ir := none, imem := [] }

theorem State.valid_withoutWord (s : State) (c : Cell) : s.withoutWord.valid c = s.valid c := by cases c <;> rfl

/-- No meaning reads `ir` or instruction memory (R26, R51). -/
theorem mapNext_exec_withoutWord (i : Instr) (s : State) :
    mapNext State.withoutWord (exec i s.withoutWord) = mapNext State.withoutWord (exec i s) := by
  cases i with
  | alpha letter => rfl
  | cmp letter blank oring => refine mapNext_exec_cmp_congr ?_ s.valid_withoutWord (fun _ => ?_) ?_ <;> rfl
  | brac a e =>
    rw [exec_brac, exec_brac, show s.withoutWord.eq = s.eq from rfl]
    split <;> rfl
  | bra a => rfl
  | draw letter blank => refine mapNext_exec_draw_congr ?_ fun _ => ?_ <;> rfl
  | move left => cases left <;> refine mapNext_exec_move_congr ?_ ?_ ?_ ?_ ?_ <;> rfl
  | endRun halt => rfl
  | nop => rfl

theorem mapNext_commit_withoutWord (s : State) (o : Host.Outcome State Fault Refusal) :
    mapNext State.withoutWord (commit s o) = commit s.withoutWord (mapNext State.withoutWord o) := by
  cases o <;> rfl

/-- Steps from states alike but for the word they fetch look alike when the two words decode alike. -/
theorem mapNext_step_congr_word {s s' : State} {w w' : Word} (h : s.withoutWord = s'.withoutWord)
    (hw : s.fetches w) (hw' : s'.fetches w') (hd : decode s.cfg w = decode s'.cfg w') :
    mapNext State.withoutWord (step s) = mapNext State.withoutWord (step s') := by
  have hfault : s.fault = s'.fault := (congrArg State.fault h :)
  have hstatus : s.status = s'.status := (congrArg State.status h :)
  cases hf : s.fault with
  | some r => rw [step_of_fault hf, step_of_fault (hfault ▸ hf)]
  | none =>
    by_cases hterm : s.terminal
    · rw [step_of_terminal hf hterm, step_of_terminal (hfault ▸ hf) (by rwa [State.terminal, ← hstatus])]
      exact congrArg Host.Outcome.next h
    · have he : s.enabled := ⟨State.running_of_not_terminal hterm, hf⟩
      have he' : s'.enabled := by rwa [State.enabled, ← hstatus, ← hfault]
      have hfetched : (s.fetched w).withoutWord = (s'.fetched w').withoutWord :=
        (congrArg (fun t => (t.fetched w).withoutWord) h :)
      rw [step_fetched he (State.fetches_iff.mp hw), step_fetched he' (State.fetches_iff.mp hw'),
        mapNext_commit_withoutWord, mapNext_commit_withoutWord, h, hd, ← mapNext_exec_withoutWord _ (s.fetched w),
        hfetched, mapNext_exec_withoutWord]

end Sys2Proof.Machine
end

section
/-! The statements of 30_encoding.md, settled. -/

namespace Sys2Proof

/-- Settles O6: `decode_encode`, the opcode through the injective map and each operand through its field. -/
theorem decodeOfEncodeIsTheInstruction : Obligations.DecodeOfEncodeIsTheInstruction := fun _ i h => decode_encode h i

/-- Settles O7: re-encoding clears the unused bits (`encode_decode`), so it restores a word exactly when they are 0. -/
theorem reencodingRestoresExactlyCanonicalWords : Obligations.ReencodingRestoresExactlyCanonicalWords := fun _ w h =>
  encode_decode_eq_self_iff h w

/-- Settles O8: unused bits lie outside the opcode and the fields, and a step uses a word only through its decoding. -/
theorem unusedBitsAreIgnored : Obligations.UnusedBitsAreIgnored := by
  refine ⟨fun cfg w w' hdiff => ?_, fun cfg i h => canonical_encode h i⟩
  have hd := decode_congr_of_unused hdiff
  refine ⟨hd, fun s m m' hcfg hm hm' => ?_⟩
  subst hcfg
  exact Machine.mapNext_step_congr_word (s := { s with imem := m }) (s' := { s with imem := m' }) rfl (.inl hm)
    (.inl hm') hd

/-- Settles O2: the case table of R95 by its first column, then each field as a number. -/
theorem defaultDecoderReadsEveryWord : Obligations.DefaultDecoderReadsEveryWord := by
  intro w
  have hop := decode_of_value (w := w) defaultConfig_wellFormed
  have hletter : letterField .msbFirst w = BitVec.ofNat 8 (w.toNat / 32 % 256) := extractLsb'_eq_iff.mpr (by simp)
  have haddr : addrField .msbFirst w = BitVec.ofNat 12 (w.toNat / 2 % 4096) := extractLsb'_eq_iff.mpr (by simp)
  split
  case h_1 hw => rw [hop .alpha hw, ← hletter]; rfl
  case h_2 hw => rw [hop .cmp hw, ← hletter]; rfl
  case h_3 hw => rw [hop .brac hw, ← haddr]; rfl
  case h_4 hw => rw [hop .bra hw, ← haddr]; rfl
  case h_5 hw => rw [hop .draw hw, ← hletter]; rfl
  case h_6 hw => rw [hop .move hw]; rfl
  case h_7 hw => rw [hop .endRun hw]; rfl
  case h_8 h0 h1 h2 h3 h4 h5 h6 =>
    refine (decode_eq_nop_iff defaultConfig_wellFormed).mpr ?_
    rw [show Config.default.opcodeMap.unassigned.toNat = 7 by decide]
    simp only [imp_false] at h0 h1 h2 h3 h4 h5 h6
    omega

/-- Settles O3: each clause names its opcode; what is left says that the opcode value and each field are digits of the
word's number. -/
theorem msbFirstFormats : Obligations.MsbFirstFormats := by
  intro cfg w h hp
  refine ⟨fun letter u hu hw => (decode_of_value h .alpha ?_).trans ?_,
    fun letter blank oring u hu hw =>
      have hblank := blank.toNat_lt
      have horing := oring.toNat_lt
      (decode_of_value h .cmp ?_).trans ?_,
    fun addr e hw =>
      have he := e.toNat_lt
      (decode_of_value h .brac ?_).trans ?_,
    fun addr u hu hw => (decode_of_value h .bra ?_).trans ?_,
    fun letter blank u hu hw =>
      have hblank := blank.toNat_lt
      (decode_of_value h .draw ?_).trans ?_,
    fun left u hu hw =>
      have hleft := left.toNat_lt
      (decode_of_value h .move ?_).trans ?_,
    fun halt u hu hw =>
      have hhalt := halt.toNat_lt
      (decode_of_value h .endRun ?_).trans ?_,
    fun v => decode_of_no_value⟩
  all_goals
    simp only [hp, OpcodeMap.value, Instr.ofOpcode, letterField, addrField, blankField, oringField, polarityField,
      flagField, extractLsb'_eq_iff, getLsbD_eq_iff, Instr.alpha.injEq, Instr.cmp.injEq, Instr.brac.injEq,
      Instr.bra.injEq, Instr.draw.injEq, Instr.move.injEq, Instr.endRun.injEq]
    omega

/-- Settles O4: as `msbFirstFormats`, with the digits of R91. -/
theorem lsbFirstFormats : Obligations.LsbFirstFormats := by
  intro cfg w h hp
  refine ⟨fun letter u hu hw => (decode_of_value h .alpha ?_).trans ?_,
    fun letter blank oring u hu hw =>
      have hblank := blank.toNat_lt
      have horing := oring.toNat_lt
      (decode_of_value h .cmp ?_).trans ?_,
    fun addr e hw =>
      have he := e.toNat_lt
      (decode_of_value h .brac ?_).trans ?_,
    fun addr u hu hw => (decode_of_value h .bra ?_).trans ?_,
    fun letter blank u hu hw =>
      have hblank := blank.toNat_lt
      (decode_of_value h .draw ?_).trans ?_,
    fun left u hu hw =>
      have hleft := left.toNat_lt
      (decode_of_value h .move ?_).trans ?_,
    fun halt u hu hw =>
      have hhalt := halt.toNat_lt
      (decode_of_value h .endRun ?_).trans ?_,
    fun v => decode_of_no_value⟩
  all_goals
    simp only [hp, OpcodeMap.value, Instr.ofOpcode, letterField, addrField, blankField, oringField, polarityField,
      flagField, extractLsb'_eq_iff, getLsbD_eq_iff, Instr.alpha.injEq, Instr.cmp.injEq, Instr.brac.injEq,
      Instr.bra.injEq, Instr.draw.injEq, Instr.move.injEq, Instr.endRun.injEq]
    omega

/-- Settles O5: `decode_eq_nop_iff` at the map's unassigned value, which the encoding of NOP shows to be the only one. -/
theorem exactlyOneOpcodeValueIsNop : Obligations.ExactlyOneOpcodeValueIsNop := by
  refine ⟨rfl, fun w => decode_eq_nop_iff defaultConfig_wellFormed, fun cfg h => ?_⟩
  refine ⟨cfg.opcodeMap.unassigned, fun w => decode_eq_nop_iff h, fun v hv => ?_⟩
  have hnop := (hv (encode cfg .nop)).mp (decode_encode h .nop)
  rw [← opcodeField_eq_iff.mpr hnop, opcodeField_encode, Instr.opcodeValue]

/-- Settles O1: the encodings are computed, and decoding them is the first law of R96. -/
theorem workedEncodingsOfTheSpec : Obligations.WorkedEncodingsOfTheSpec := by
  intro p hp
  have henc : encode Config.default p.1 = p.2 := by
    revert p
    decide
  exact ⟨henc, henc ▸ decode_encode defaultConfig_wellFormed p.1⟩

end Sys2Proof
end

section
/-! SUPPORT. The step of R111 in the terms of the statements: the state after the fetch, what an enabled step can do, the
step of the instructions that do nothing beyond the fetch or that end a run, and the placed word (log entry 13). -/

namespace Sys2Proof.Machine

/-! ### The state after the fetch -/

/-- R112: the increment as a number. -/
theorem nextPc_toNat (pc : Word) : (nextPc pc).toNat = (pc.toNat % 4096 + 1) % 4096 := by
  rw [nextPc, addrToPc_toNat, BitVec.toNat_add, pcAddr_toNat]
  rfl

theorem State.counted_eq_countUp (s : State) (n : Nat) : s.counted n = countUp s.cfg.counterWidth n := rfl

/-- The statements' state after the fetch is the model's. -/
theorem State.afterFetch_eq_fetched (s : State) (w : Word) : s.afterFetch w = s.fetched w := by
  have hpc : BitVec.ofNat 16 ((s.pc.toNat % 4096 + 1) % 4096) = nextPc s.pc := by
    rw [← nextPc_toNat, BitVec.ofNat_toNat, BitVec.setWidth_eq]
  rw [State.afterFetch, hpc, State.counted_eq_countUp, State.fetched]

theorem State.afterFetch_pc_toNat (s : State) (w : Word) :
    (s.afterFetch w).pc.toNat = (s.pc.toNat % 4096 + 1) % 4096 := by
  rw [State.afterFetch_eq_fetched, State.fetched_pc, nextPc_toNat]

/-! ### The step that fetches a word -/

/-- R111: an enabled step that fetches `w` commits what its instruction answers on the state after the fetch. -/
theorem step_fetches {s : State} {w : Word} (he : s.enabled) (hw : s.fetches w) :
    step s = commit s (exec (decode s.cfg w) (s.afterFetch w)) := by
  rw [step_fetched he (State.fetches_iff.mp hw), State.afterFetch_eq_fetched]

/-- Where the instruction completes, the step answers its state. -/
theorem step_next_of_exec {s t : State} {w : Word} (he : s.enabled) (hw : s.fetches w)
    (hx : exec (decode s.cfg w) (s.afterFetch w) = .next t) : step s = .next t := by
  rw [step_fetches he hw, hx, commit]

/-- R207: where the instruction faults, the step answers the state before it with the mark. -/
theorem step_raise_of_exec {s : State} {w : Word} {r : Fault} (he : s.enabled) (hw : s.fetches w)
    (hx : exec (decode s.cfg w) (s.afterFetch w) = .fault r) : step s = .next (s.raise r) := by
  rw [step_fetches he hw, hx, commit]

/-- R52: nothing is loaded at `pc[11:0]` and nothing fills. -/
theorem step_raise_of_unloaded {s : State} (he : s.enabled) (hr : s.imem.read (s.pc.toNat % 4096) = none)
    (hc : s.cfg.imemUnloaded = .fault) : step s = .next (s.raise .unloadedFetch) := by
  refine step_unloaded he ?_
  rw [State.fetchWord_unloaded (by rwa [pcAddr_toNat]), hc, unloadedWord]

/-- The two things an enabled step does: it executes the word it fetches, or it leaves a mark. -/
theorem step_enabled_cases {s t : State} (he : s.enabled) (h : step s = .next t) :
    (∃ w, s.fetches w ∧ exec (decode s.cfg w) (s.fetched w) = .next t) ∨ ∃ r, t = s.raise r := by
  rcases step_next_cases h with ⟨-, hterm, -⟩ | ⟨-, -, hraise⟩ | ⟨w, -, hw, hx⟩ | ⟨-, -, -, -, hraise⟩
  · simp [State.terminal, he.1] at hterm
  · exact .inr ⟨_, hraise⟩
  · exact .inl ⟨w, State.fetches_iff.mpr hw, hx⟩
  · exact .inr ⟨_, hraise⟩

/-- R113: a step without a mark counts once. -/
theorem step_steps {s t : State} (he : s.enabled) (h : step s = .next t) (hf : t.fault = none) :
    t.steps = countUp s.cfg.counterWidth s.steps := by
  rcases step_enabled_cases he h with ⟨w, -, hx⟩ | ⟨r, rfl⟩
  · obtain ⟨-, -, -, hsteps, -⟩ := exec_frame hx
    exact hsteps
  · simp at hf

/-! ### The program counter -/

/-- R112, R150: only BRA and a taken BRAC write `pc`. -/
theorem exec_pc_of_not_branch {i : Instr} {s t : State} (h : exec i s = .next t) (hbra : ∀ a, i ≠ .bra a)
    (hbrac : ∀ a, i ≠ .brac a s.eq) : t.pc = s.pc := by
  cases i, t, h using exec_next_elim with
  | taken a e _ he => exact absurd (by rw [he]) (hbrac a)
  | bra a => exact absurd rfl (hbra a)
  | _ => simp

/-! ### NOP and the ends of a run -/

/-- R117. -/
theorem step_nop {s : State} {w : Word} (he : s.enabled) (hw : s.fetches w) (hd : decode s.cfg w = .nop) :
    step s = .next (s.afterFetch w) :=
  step_next_of_exec he hw (by rw [hd, exec_nop])

/-- R190. -/
theorem step_endRun {s : State} {w : Word} {halt : Bool} (he : s.enabled) (hw : s.fetches w)
    (hd : decode s.cfg w = .endRun halt) : step s = .next ((s.afterFetch w).halt (endStatus halt)) :=
  step_next_of_exec he hw (by rw [hd, exec_endRun])

theorem endStatus_eq_ite (halt : Bool) : endStatus halt = if halt then .halted else .failed := rfl

/-- R134: CMP over an undeclared symbol ends the run, whatever its operands. -/
theorem exec_cmp_undeclared {s : State} {x : Symbol} (hc : s.tapeRead = some (.symbol x)) (hx : s.declared x = false)
    (letter : Symbol) (blank oring : Bool) : exec (.cmp letter blank oring) s = .next (s.halt .failed) := by
  rw [exec_cmp hc, State.valid_symbol, hx, if_neg Bool.false_ne_true]

/-- R202. -/
theorem step_cmp_undeclared {s : State} {w : Word} {letter : Symbol} {blank oring : Bool} {x : Symbol} (he : s.enabled)
    (hw : s.fetches w) (hd : decode s.cfg w = .cmp letter blank oring) (hc : s.tapeRead = some (.symbol x))
    (hx : s.declared x = false) : step s = .next ((s.afterFetch w).halt .failed) :=
  step_next_of_exec he hw (by rw [hd, exec_cmp_undeclared (s := s.afterFetch w) hc hx])

/-- R116: what an instruction that changes the status was, and what a CMP among them saw. -/
theorem exec_cause_of_status_ne {i : Instr} {s t : State} (h : exec i s = .next t) (hne : t.status ≠ s.status) :
    (∃ halt, i = .endRun halt) ∨ ((∃ letter blank oring, i = .cmp letter blank oring) ∧ t.status = .failed ∧
      ∃ x, s.tapeRead = some (.symbol x) ∧ s.declared x = false) := by
  cases i, t, h using exec_next_elim with
  | invalid letter blank oring c _ hc hv =>
    obtain ⟨x, rfl, hx⟩ := State.not_valid hv
    exact .inr ⟨⟨letter, blank, oring, rfl⟩, rfl, x, hc, hx⟩
  | endRun b => exact .inl ⟨b, rfl⟩
  | _ => exact absurd (by simp) hne

/-- R110, R116: a step that is not enabled changes nothing where it answers a next state. -/
theorem step_eq_self_of_not_enabled {s t : State} (hs : ¬ s.enabled) (h : step s = .next t) : t = s :=
  step_keeps (P := (· = s)) rfl (fun he => absurd he hs) (fun he => absurd he hs) h

/-- R116: a run from a state that is not running stays in it. -/
theorem runSteps_eq_self_of_not_running {k : Nat} {s t : State} (hs : s.status ≠ .running)
    (h : runSteps k s = .next t) : t = s := by
  refine runSteps_induct (P := (· = s)) ?_ rfl h
  rintro _ u rfl hu
  exact step_eq_self_of_not_enabled (fun he => hs he.1) hu

/-! ### The placed word -/

/-- A table word of 16 bits is placed as it is. -/
theorem State.withFetchWord_toNat (s : State) (w : Word) : s.withFetchWord 16 w.toNat = placeFetchWord s w := by
  rw [State.withFetchWord, Nat.mod_eq_of_lt w.isLt, BitVec.ofNat_toNat, BitVec.setWidth_eq]

theorem placeFetchWord_imem (s : State) (w : Word) :
    (placeFetchWord s w).imem = s.imem.write (s.pc.toNat % 4096) w := by
  rw [← pcAddr_toNat]
  rfl

theorem placeFetchWord_fetches (s : State) (w : Word) : (placeFetchWord s w).fetches w := by
  refine .inl ?_
  rw [placeFetchWord_imem]
  exact Memory.read_write_same _ _ w

theorem placeFetchWord_enabled (s : State) (w : Word) : (placeFetchWord s w).enabled := ⟨rfl, rfl⟩

end Sys2Proof.Machine
end

section
/-! The statements of 40_sequencer.md, settled. -/

namespace Sys2Proof.Machine

/-- Settles O20: the instruction runs on the incremented `pc`, and only a branch that jumps writes it again. -/
theorem pcIncrementsModulo4096 : Obligations.PcIncrementsModulo4096 := by
  intro s t w he hw h hf hbra hbrac
  have hpc : t.pc.toNat = (s.pc.toNat % 4096 + 1) % 4096 := by
    rw [exec_pc_of_not_branch (exec_of_step_next he hw h hf) hbra hbrac, State.fetched_pc, nextPc_toNat]
  refine ⟨hpc, fun hlast => BitVec.eq_of_toNat_eq ?_⟩
  rw [hpc, hlast]
  rfl

/-- Settles O21: a step without a mark counts once (`step_steps`), and a marked state keeps `steps`. -/
theorem everyFetchedStepCountsOnce : Obligations.EveryFetchedStepCountsOnce := by
  refine fun s t he h => ⟨fun hf => ?_, fun hf => ?_⟩
  · have hsteps := step_steps he h hf
    exact ⟨fun hn => by rw [hsteps, hn, countUp_none], fun n hn => by rw [hsteps, hn, countUp_some]⟩
  · obtain ⟨r, rfl⟩ := eq_raise_of_step_fault he h hf
    rfl

/-- Settles O26: the two ends by their steps; no other instruction changes the status (`exec_cause_of_status_ne`), and a
mark keeps it; a state that is not running performs no step. -/
theorem terminalStatesAreReachedAndKept : Obligations.TerminalStatesAreReachedAndKept := by
  refine ⟨fun s w halt he hw hd => ⟨_, step_endRun he hw hd, endStatus_eq_ite halt⟩,
    fun s w letter blank oring x he hw hd hc hx => ⟨_, step_cmp_undeclared he hw hd hc hx, rfl⟩,
    fun s t he h ht => ?_, fun t u k => runSteps_eq_self_of_not_running⟩
  rcases step_enabled_cases he h with ⟨w, hw, hx⟩ | ⟨r, rfl⟩
  · exact ⟨w, hw, exec_cause_of_status_ne (s := s.fetched w) hx (he.1.symm ▸ ht)⟩
  · exact absurd he.1 ht

/-- Settles O18: the step commits the instruction's answer, and the unloaded fetch leaves its mark. -/
theorem stepRunsTheDecodedInstruction : Obligations.StepRunsTheDecodedInstruction := fun _ hs hf =>
  ⟨fun _ hw => ⟨fun _ => step_next_of_exec ⟨hs, hf⟩ hw, fun _ => step_raise_of_exec ⟨hs, hf⟩ hw⟩,
    step_raise_of_unloaded ⟨hs, hf⟩⟩

/-- Settles O19: the word is written at the address the fetch reads, and a write keeps every other address. -/
theorem placedWordIsFetchedNext : Obligations.PlacedWordIsFetchedNext := by
  intro s w
  rw [State.withFetchWord_toNat]
  refine ⟨placeFetchWord_fetches s w, placeFetchWord_enabled s w, fun a ha => ?_, rfl⟩
  rw [placeFetchWord_imem, Memory.read_write_other _ w ha]

/-- Settles O39: a word with an unassigned value decodes to NOP, and NOP's step is the fetch, the increment and the count. -/
theorem nopOnlyPassesTheStep : Obligations.NopOnlyPassesTheStep := by
  refine ⟨exec_nop, fun s w v he hw hv hval => step_nop he hw (decode_of_no_value hv hval), fun w u hu hw => ?_,
    fun s w hlast => ?_⟩
  · have hval : w.toNat / 8192 = (7#3).toNat := by
      rw [hw, BitVec.toNat_ofNat]
      omega
    exact decode_of_no_value (fun o => by cases o <;> decide) hval
  · rw [State.afterFetch_pc_toNat, hlast]

end Sys2Proof.Machine
end

section
/-! SUPPORT. The alphabet registry through a meaning and a step (R132), CMP by the cases of R135 and along an OR chain (R138),
and the frames of the instructions that store nothing. -/

namespace Sys2Proof.Machine

/-! ### Declarations -/

theorem State.declared_declare_iff (s : State) (x y : Symbol) :
    (s.declare x).declared y = true ↔ y = x ∨ s.declared y = true := by
  rw [State.declared_declare, Bool.or_eq_true, decide_eq_true_iff, or_comm]

/-- R131, R132: a meaning keeps what is declared, and adds the letter of an ALPHA alone. -/
theorem exec_declared_iff {i : Instr} {s t : State} (h : exec i s = .next t) (x : Symbol) :
    t.declared x = true ↔ i = .alpha x ∨ s.declared x = true := by
  cases i, t, h using exec_next_elim with
  | alpha letter => rw [State.declared_declare_iff, Instr.alpha.injEq, eq_comm]
  | _ => simp [State.declared]

/-- R132: no step removes a declaration. -/
theorem step_declared {s t : State} {x : Symbol} (hs : s.declared x = true) (h : step s = .next t) :
    t.declared x = true :=
  step_keeps (P := fun u => u.declared x = true) hs (fun _ _ => hs)
    (fun _ _ _ hx => (exec_declared_iff hx x).mpr (.inr hs)) h

/-- R132: a step that adds a declaration executed the ALPHA of that symbol. -/
theorem step_newly_declared {s t : State} {x : Symbol} (he : s.enabled) (h : step s = .next t)
    (hs : s.declared x = false) (ht : t.declared x = true) : ∃ w, s.fetches w ∧ decode s.cfg w = .alpha x := by
  rcases step_enabled_cases he h with ⟨w, hw, hx⟩ | ⟨r, rfl⟩
  · exact ⟨w, hw, ((exec_declared_iff hx x).mp ht).resolve_right (Bool.eq_false_iff.mp hs)⟩
  · exact absurd ht (Bool.eq_false_iff.mp hs)

/-! ### CMP -/

/-- R135 over a valid cell: `oring` keeps a set flag, and otherwise the flag is the match value. -/
theorem exec_cmp_valid {s : State} {c : Cell} (hc : s.tapeRead = some c) (hv : s.validCell c) (letter : Symbol)
    (blank oring : Bool) :
    exec (.cmp letter blank oring) s = .next (s.setEq (oring && s.eq || matchValue c letter blank)) := by
  rw [exec_cmp hc, if_pos ((s.valid_iff c).mpr hv), compareFlag_eq]

/-- A CMP that answers a next state saw a cell, and left what R134 and R135 say of it. -/
theorem exec_cmp_saw {s t : State} {letter : Symbol} {blank oring : Bool}
    (h : exec (.cmp letter blank oring) s = .next t) :
    ∃ c, s.tapeRead = some c ∧ s.comparedIn t (s.validCell c) c letter blank oring := by
  cases hc : s.tapeRead with
  | none => simp [exec_cmp_off_tape hc] at h
  | some c =>
    obtain ⟨u, hu, hcompared⟩ := exec_cmp_completes hc letter blank oring
    obtain rfl : u = t := Host.Outcome.next.inj (hu.symm.trans h)
    exact ⟨c, rfl, hcompared⟩

/-- R138: a set flag stays set through a CMP with `oring`. -/
theorem exec_cmp_oring_eq {s t : State} {letter : Symbol} {blank : Bool} (hs : s.eq = true)
    (h : exec (.cmp letter blank true) s = .next t) : t.eq = true := by
  obtain ⟨c, -, hvalid, hinvalid⟩ := exec_cmp_saw h
  by_cases hv : s.validCell c
  · simp [(hvalid hv).2, hs]
  · exact (hinvalid hv).2.trans hs

theorem execAll_cons_next {i : Instr} {s t : State} (h : exec i s = .next t) (is : List Instr) :
    execAll (i :: is) s = execAll is t := by
  rw [execAll, h]

/-- CMPs with `oring` over a valid cell add to the flag whether the cell is one of their letters. -/
theorem execAll_oring_chain {s : State} {c : Cell} (hc : s.tapeRead = some c) (hv : s.validCell c)
    (letters : List Symbol) :
    execAll (letters.map fun l => .cmp l false true) s =
      .next (s.setEq (s.eq || letters.any fun l => decide (c = .symbol l))) := by
  induction letters generalizing s with
  | nil => rw [List.any_nil, Bool.or_false]; rfl
  | cons l ls ih =>
    have hrest := ih (s := s.setEq (true && s.eq || matchValue c l false)) hc hv
    rw [List.map_cons, execAll_cons_next (exec_cmp_valid hc hv l false true), hrest, List.any_cons, ← Bool.or_assoc]
    rfl

/-! ### Frames -/

/-- R131: only ALPHA writes the registry. -/
theorem exec_alpha_of_not_alpha {i : Instr} {s t : State} (h : exec i s = .next t) (hi : ∀ letter, i ≠ .alpha letter) :
    t.alpha = s.alpha := by
  cases i, t, h using exec_next_elim with
  | alpha letter => exact absurd rfl (hi letter)
  | _ => simp

/-- R170: only DRAW and MOVE write the tape or move the head. -/
theorem exec_tape_of_not_draw_move {i : Instr} {s t : State} (h : exec i s = .next t)
    (hdraw : ∀ letter blank, i ≠ .draw letter blank) (hmove : ∀ left, i ≠ .move left) :
    t.tape = s.tape ∧ t.head = s.head := by
  cases i, t, h using exec_next_elim with
  | draw letter blank => exact absurd rfl (hdraw letter blank)
  | grow left => exact absurd rfl (hmove left)
  | shift left => exact absurd rfl (hmove left)
  | _ => exact ⟨rfl, rfl⟩

/-- R30: only MOVE counts. -/
theorem exec_moves_of_not_move {i : Instr} {s t : State} (h : exec i s = .next t) (hmove : ∀ left, i ≠ .move left) :
    t.moves = s.moves := by
  rcases exec_moves h with ⟨⟨left, hi⟩, -⟩ | ⟨-, hm⟩
  · exact absurd hi (hmove left)
  · exact hm

/-- R116: only CMP and END write the status. -/
theorem exec_status_of_not_cmp_end {i : Instr} {s t : State} (h : exec i s = .next t)
    (hcmp : ∀ letter blank oring, i ≠ .cmp letter blank oring) (hend : ∀ halt, i ≠ .endRun halt) :
    t.status = s.status := by
  by_contra hne
  rcases exec_cause_of_status_ne h hne with ⟨halt, hi⟩ | ⟨⟨letter, blank, oring, hi⟩, -⟩
  · exact hend halt hi
  · exact hcmp letter blank oring hi

end Sys2Proof.Machine
end

section
/-! The statements of 41_alphabet_compare.md, settled. -/

namespace Sys2Proof.Machine

/-- Settles O28: a run keeps what each step keeps, a step declares by an executed ALPHA, and a declaration is idempotent. -/
theorem declarationsOnlyGrowAndOnlyByAlpha : Obligations.DeclarationsOnlyGrowAndOnlyByAlpha := by
  refine ⟨fun k s t x h hs => ?_, fun s t x => step_newly_declared, fun s x hx => ?_, fun s x => ?_⟩
  · exact runSteps_induct (P := fun u => u.declared x = true) (fun _ _ => step_declared) hs h
  · rw [exec_alpha, State.declare_of_declared hx]
  · exact ⟨s.declare x, exec_alpha x s, (s.declared_declare_iff x x).mpr (.inl rfl)⟩

/-- Settles O29: over an undeclared symbol `exec_cmp_undeclared`, over a valid cell `exec_cmp_valid` by whether `oring` keeps
a set flag, and the format at the default map. -/
theorem cmpChecksThenComparesTheCell : Obligations.CmpChecksThenComparesTheCell := by
  refine ⟨fun letter blank oring s c hc => ⟨?_, fun hv => ⟨?_, fun hkeep => ?_⟩⟩, fun letter blank oring w => ?_⟩
  · rintro ⟨x, rfl, hx⟩
    exact exec_cmp_undeclared hc hx letter blank oring
  · rintro ⟨rfl, heq⟩
    have hkept : (true && s.eq || matchValue c letter blank) = s.eq := by simp [heq]
    rw [exec_cmp_valid hc hv, hkept]
    rfl
  · have hoff : (oring && s.eq) = false := by simpa using hkeep
    rw [exec_cmp_valid hc hv, hoff, Bool.false_or]
    rfl
  · obtain ⟨-, hcmp, -⟩ := msbFirstFormats Config.default w defaultConfig_wellFormed rfl
    exact hcmp letter blank oring

/-- Settles O30: the first CMP sets the flag to its match, and the chain after it adds the other letters. -/
theorem orChainMatchesAnyOfItsLetters : Obligations.OrChainMatchesAnyOfItsLetters := by
  refine ⟨fun s c a letters hc hv => ?_, fun s t letter blank => exec_cmp_oring_eq, fun s t letter blank v h ht => ?_⟩
  · have hrest := execAll_oring_chain (s := s.setEq (false && s.eq || matchValue c a false)) hc hv letters
    rw [execAll_cons_next (exec_cmp_valid hc hv a false false), hrest]
    rfl
  · exact ⟨t, exec_cmp_setEq h ht v, rfl⟩

/-- Settles O41: each part of the state by the lemma that names its writers. -/
theorem frameOfTheInstructionsThatStoreNothing : Obligations.FrameOfTheInstructionsThatStoreNothing := by
  intro i s t h hdraw hmove
  obtain ⟨hcfg, himem, hir, hsteps, hfault⟩ := exec_frame h
  obtain ⟨htape, hhead⟩ := exec_tape_of_not_draw_move h hdraw hmove
  exact ⟨fun a => by rw [himem], fun j => by rw [htape], hhead, exec_moves_of_not_move h hmove, hcfg, hir, hsteps, hfault,
    exec_alpha_of_not_alpha h, exec_eq_of_not_cmp h, exec_status_of_not_cmp_end h,
    fun hbra hbrac => exec_pc_of_not_branch h hbra fun a => hbrac a s.eq⟩

/-- Settles O27: ALPHA is one `declare`, the format at the default map, and the example's word is that format's. -/
theorem alphaDeclaresItsLetter : Obligations.AlphaDeclaresItsLetter := by
  have hformat : ∀ (letter : Symbol) (w : Word) (u : Nat), u < 32 → w.toNat = 0b000 * 8192 + letter.toNat * 32 + u →
      decode Config.default w = .alpha letter := by
    intro letter w
    obtain ⟨halpha, -⟩ := msbFirstFormats Config.default w defaultConfig_wellFormed rfl
    exact halpha letter
  refine ⟨fun letter s => ⟨s.declare letter, exec_alpha letter s, s.declared_declare_iff letter, rfl⟩, hformat,
    fun s hs => ⟨s.declare 0x61, ?_, fun x => ?_⟩⟩
  · rw [hformat 0x61 0x0C20 0 (by decide) (by decide), exec_alpha]
  · have hempty : s.alpha.getLsbD x.toNat = false := by rw [hs]; exact BitVec.getLsbD_zero
    exact (s.declared_declare_iff 0x61 x).trans (or_iff_left (Bool.eq_false_iff.mp hempty))

end Sys2Proof.Machine
end

section
/-! SUPPORT. A branch's write of `pc` as a number (R93, R150), and BRAC by whether the flag matches (R151). -/

namespace Sys2Proof.Machine

/-- R93: zero-extension keeps the address's number. -/
theorem addrToPc_eq_ofNat (a : Addr) : addrToPc a = BitVec.ofNat 16 a.toNat :=
  (BitVec.ofNat_toNat 16 a).symm

theorem State.jump_eq_write_pc (s : State) (a : Addr) : s.jump a = { s with pc := BitVec.ofNat 16 a.toNat } := by
  rw [State.jump, addrToPc_eq_ofNat]

theorem exec_brac_taken {s : State} {e : Bool} (h : s.eq = e) (addr : Addr) :
    exec (.brac addr e) s = .next (s.jump addr) := by
  rw [exec_brac, if_pos h]

theorem exec_brac_notTaken {s : State} {e : Bool} (h : s.eq ≠ e) (addr : Addr) :
    exec (.brac addr e) s = .next s := by
  rw [exec_brac, if_neg h]

end Sys2Proof.Machine
end

section
/-! The statements of 42_branch.md, settled. -/

namespace Sys2Proof.Machine

/-- Settles O32: the taken branch is one `jump`, the other one no write, and the format at the default map. -/
theorem bracJumpsWhenTheFlagMatches : Obligations.BracJumpsWhenTheFlagMatches := by
  refine ⟨fun addr e s => ⟨fun htaken => ?_, fun hnot => exec_brac_notTaken hnot addr⟩, fun addr e w => ?_⟩
  · rw [exec_brac_taken htaken, State.jump_eq_write_pc]
  · obtain ⟨-, -, hbrac, -⟩ := msbFirstFormats Config.default w defaultConfig_wellFormed rfl
    exact hbrac addr e

/-- Settles O33: BRA is one `jump`, and the format at the default map. -/
theorem braJumps : Obligations.BraJumps := by
  refine ⟨fun addr s => ?_, fun addr w => ?_⟩
  · rw [exec_bra, State.jump_eq_write_pc]
  · obtain ⟨-, -, -, hbra, -⟩ := msbFirstFormats Config.default w defaultConfig_wellFormed rfl
    exact hbra addr

end Sys2Proof.Machine
end

section
/-! SUPPORT. DRAW and MOVE in the terms of the statements: MOVE by whether it grows the tape and whether there is room (R175,
R178), the cells of a grown tape (R37), and what the two instructions leave unchanged (R170). -/

namespace Sys2Proof.Machine

/-! ### The edges and the capacity -/

theorem State.growing_left_iff (s : State) : s.growing true ↔ s.head = 0 := Iff.rfl

theorem State.growing_right_iff (s : State) : s.growing false ↔ s.head = s.tape.length - 1 := Iff.rfl

/-- With the head on the tape, a MOVE grows the tape exactly when the head is at the edge of its direction (R175). -/
theorem State.growing_iff_atEdge {s : State} (hhead : s.head < s.tape.length) (left : Bool) :
    s.growing left ↔ s.atEdge (moveDir left) = true := by
  cases left with
  | true => exact s.atEdge_left.symm
  | false =>
    rw [State.growing_right_iff, moveDir_false, State.atEdge_right]
    omega

/-- R61, R178: the tape may grow exactly when it is not full. -/
theorem State.hasRoom_iff_not_full (s : State) : s.hasRoom ↔ ¬ s.tapeFull = true := by
  cases hcap : s.cfg.tapeCapacity with
  | none => simp [State.hasRoom, State.tapeFull_unbounded hcap, hcap]
  | some k => simp [State.hasRoom, State.tapeFull_bounded hcap, hcap]

theorem State.not_hasRoom_at_capacity {s : State} (hcap : s.cfg.tapeCapacity = some s.tape.length) : ¬ s.hasRoom := by
  rw [State.hasRoom_iff_not_full, not_not, State.tapeFull_bounded hcap]

/-! ### MOVE by its cases -/

section
variable {s : State} (hhead : s.head < s.tape.length)
include hhead

/-- R174, R175, R178: MOVE by the terms of the statements. -/
theorem exec_move_eq_ite (left : Bool) [Decidable (s.growing left)] [Decidable s.hasRoom] : exec (.move left) s =
    if s.growing left then
      if s.hasRoom then .next (s.countMove.grown (moveDir left)) else .fault .tapeExhausted
    else .next (s.countMove.shifted (moveDir left)) := by
  obtain ⟨c, hc⟩ := State.tapeRead_of_lt hhead
  have hedge : s.growing left ↔ s.countMove.atEdge (moveDir left) = true := State.growing_iff_atEdge hhead left
  have hroom : s.hasRoom ↔ ¬ s.countMove.tapeFull = true := s.hasRoom_iff_not_full
  simp only [exec_move hc, State.tapeMove, hedge, hroom, ite_not]

/-- R175 at an edge with room. -/
theorem exec_move_grows {left : Bool} (hg : s.growing left) (hroom : s.hasRoom) :
    exec (.move left) s = .next (s.countMove.grown (moveDir left)) := by
  classical rw [exec_move_eq_ite hhead, if_pos hg, if_pos hroom]

/-- R178: a growth without room. -/
theorem exec_move_exhausted {left : Bool} (hg : s.growing left) (hroom : ¬ s.hasRoom) :
    exec (.move left) s = .fault .tapeExhausted := by
  classical rw [exec_move_eq_ite hhead, if_pos hg, if_neg hroom]

/-- R175 away from the edge, whatever the capacity. -/
theorem exec_move_shifts {left : Bool} (hg : ¬ s.growing left) :
    exec (.move left) s = .next (s.countMove.shifted (moveDir left)) := by
  classical rw [exec_move_eq_ite hhead, if_neg hg]

/-- The two things a completed MOVE did. -/
theorem exec_move_next_cases {left : Bool} {t : State} (h : exec (.move left) s = .next t) :
    (s.growing left ∧ t = s.countMove.grown (moveDir left)) ∨
    (¬ s.growing left ∧ t = s.countMove.shifted (moveDir left)) := by
  classical
  rw [exec_move_eq_ite hhead] at h
  split at h
  next hg =>
    split at h <;> cases h
    exact .inl ⟨hg, rfl⟩
  next hg =>
    cases h
    exact .inr ⟨hg, rfl⟩

/-- A MOVE right completes where the tape may grow, and puts the head one cell to the right. -/
theorem exec_move_right_completes (hroom : s.hasRoom) : ∃ t, exec (.move false) s = .next t ∧ t.head = s.head + 1 ∧
    (s.growing false → t.tape = s.tape ++ [s.cfg.growFill]) ∧ (¬ s.growing false → t.tape = s.tape) := by
  by_cases hg : s.growing false
  · exact ⟨_, exec_move_grows hhead hg hroom, rfl, fun _ => rfl, absurd hg⟩
  · exact ⟨_, exec_move_shifts hhead hg, rfl, fun h => absurd h hg, fun _ => rfl⟩

end

/-- R175: a MOVE left from a cell with one on its left. -/
theorem exec_move_left_of_succ {s : State} {n : Nat} (hn : s.head = n + 1) (hhead : s.head < s.tape.length) :
    exec (.move true) s = .next (s.countMove.shifted .left) :=
  exec_move_shifts hhead (by rw [State.growing_left_iff]; omega)

/-! ### The cells of a grown tape -/

theorem State.length_grown_tape (s : State) (d : Dir) : (s.grown d).tape.length = s.tape.length + 1 := by
  cases d <;> simp

/-- R37: after a growth every old cell reads as before, one index higher where the growth is on the left. -/
theorem State.getElem?_grown_tape {s : State} {j : Nat} {c : Cell} (h : s.tape[j]? = some c) (left : Bool) :
    (s.grown (moveDir left)).tape[if left then j + 1 else j]? = some c := by
  cases left with
  | true => simpa using h
  | false =>
    obtain ⟨hj, -⟩ := List.getElem?_eq_some_iff.mp h
    simpa [List.getElem?_append_left hj] using h

/-! ### What DRAW and MOVE leave unchanged -/

/-- R170, R171, R174: neither DRAW nor MOVE writes `pc`, the flag, the status or the registry. -/
theorem exec_frame_of_draw_or_move {i : Instr} {s t : State} (h : exec i s = .next t)
    (hi : (∃ letter blank, i = .draw letter blank) ∨ ∃ left, i = .move left) :
    t.pc = s.pc ∧ t.eq = s.eq ∧ t.status = s.status ∧ t.alpha = s.alpha := by
  cases i, t, h using exec_next_elim with
  | draw => exact ⟨rfl, rfl, rfl, rfl⟩
  | grow => simp
  | shift => simp
  | _ => simp at hi

/-- A completed DRAW wrote the cell of its operands. -/
theorem exec_draw_next {letter : Symbol} {blank : Bool} {s t : State} (h : exec (.draw letter blank) s = .next t) :
    t = s.tapeWrite (drawCell letter blank) := by
  cases hc : s.tapeRead with
  | none => simp [exec_draw_off_tape hc] at h
  | some c => exact (Host.Outcome.next.inj ((exec_draw hc letter blank).symm.trans h)).symm

/-- R170: what DRAW and MOVE do apart from the flag and the registry does not depend on them. -/
theorem mapNext_exec_draw_or_move {i : Instr} (hi : (∃ letter blank, i = .draw letter blank) ∨ ∃ left, i = .move left)
    (s : State) (v : Bool) (a : BitVec 256) :
    mapNext (fun t => { t with eq := v, alpha := a }) (exec i { s with eq := v, alpha := a }) =
      mapNext (fun t => { t with eq := v, alpha := a }) (exec i s) := by
  rcases hi with ⟨letter, blank, rfl⟩ | ⟨left, rfl⟩
  · refine mapNext_exec_draw_congr ?_ fun _ => ?_ <;> rfl
  · cases left <;> refine mapNext_exec_move_congr ?_ ?_ ?_ ?_ ?_ <;> rfl

/-- A view that changes no next state of an answer leaves the answer. -/
theorem mapNext_eq_self {f : State → State} {o : Host.Outcome State Fault Refusal} (h : ∀ t, o = .next t → f t = t) :
    mapNext f o = o := by
  cases o with
  | next t => exact congrArg Host.Outcome.next (h t rfl)
  | fault r => rfl
  | refused r => rfl

end Sys2Proof.Machine
end

section
/-! The statements of 43_tape.md, settled. -/

namespace Sys2Proof.Machine

/-- Settles O24: the step commits what the MOVE answers on the state after the fetch, whose tape, head and parameters are the
state's own. -/
theorem exhaustedTapeStopsAGrowingMove : Obligations.ExhaustedTapeStopsAGrowingMove := by
  intro s w left he hw hd hhead
  have hmove : exec (decode s.cfg w) (s.afterFetch w) = exec (.move left) (s.afterFetch w) := by rw [hd]
  refine ⟨fun hcap hg => ?_, fun hg => ?_, fun hcap => ?_⟩
  · have hroom : ¬ (s.afterFetch w).hasRoom := State.not_hasRoom_at_capacity (s := s) hcap
    exact step_raise_of_exec he hw (hmove.trans (exec_move_exhausted (s := s.afterFetch w) hhead hg hroom))
  · have hx := hmove.trans (exec_move_shifts (s := s.afterFetch w) hhead hg)
    exact ⟨_, step_next_of_exec he hw hx, (State.shifted_fault _ _).trans he.2, State.shifted_tape _ _⟩
  · obtain ⟨t, hx⟩ := exec_completes (s := s.afterFetch w) (decode s.cfg w) hhead hcap
    obtain ⟨-, -, -, -, hfault⟩ := exec_frame hx
    exact ⟨t, step_next_of_exec he hw hx, hfault.trans he.2⟩

/-- Settles O35: the growth, the shift and the stop by `exec_move_grows`, `exec_move_shifts` and `exec_move_exhausted`, and the
format at the default map. -/
theorem moveMovesTheHeadAndGrowsTheTape : Obligations.MoveMovesTheHeadAndGrowsTheTape := by
  refine ⟨fun s hhead => ⟨fun h0 hroom => ?_, fun h0 => exec_move_shifts hhead h0,
    fun hlast hroom => exec_move_grows hhead hlast hroom, fun hlast => exec_move_shifts hhead hlast,
    fun left hg hcap => exec_move_exhausted hhead hg (State.not_hasRoom_at_capacity hcap)⟩, fun left w => ?_⟩
  · rw [exec_move_grows hhead (s.growing_left_iff.mpr h0) hroom]
    simp [State.grown, State.countMove, State.counted_eq_countUp, h0]
  · obtain ⟨-, -, -, -, -, hmove, -⟩ := msbFirstFormats Config.default w defaultConfig_wellFormed rfl
    exact hmove left

/-- Settles O36: a growth adds one cell and keeps the old ones, a shift keeps the tape. -/
theorem moveKeepsEveryCell : Obligations.MoveKeepsEveryCell := by
  intro s t left hhead h
  refine ⟨exec_head_lt hhead h, ?_⟩
  rcases exec_move_next_cases hhead h with ⟨hg, rfl⟩ | ⟨hg, rfl⟩
  · refine ⟨iff_of_true (State.length_grown_tape s.countMove _) hg, absurd hg, fun j c hc => ?_⟩
    have hindex : (left = true ∧ s.head = 0) ↔ left = true :=
      and_iff_left_of_imp fun hl => s.growing_left_iff.mp (hl ▸ hg)
    simp only [hindex]
    exact State.getElem?_grown_tape (s := s.countMove) hc left
  · have hindex : ¬ (left = true ∧ s.head = 0) := fun ⟨hl, h0⟩ => hg (hl ▸ s.growing_left_iff.mpr h0)
    refine ⟨iff_of_false (by simp) hg, fun _ => by simp, fun j c hc => ?_⟩
    rw [if_neg hindex]
    simpa using hc

/-- Settles O37: the growths by `exec_move_grows`, the count by `exec_moves`, and a MOVE right leaves a cell on the left to come
back to. -/
theorem moveCornerCases : Obligations.MoveCornerCases := by
  refine ⟨fun s left hlen h0 hroom => ?_, fun s t left h => ?_, fun s h0 hhead hroom => ?_, fun s hhead hroom => ?_⟩
  · have hg : s.growing left := by cases left <;> simp [State.growing, h0, hlen]
    exact ⟨_, exec_move_grows (by omega) hg hroom, by rw [State.length_grown_tape, State.countMove_tape, hlen]⟩
  · rcases exec_moves h with ⟨-, hmoves⟩ | ⟨hnot, -⟩
    · exact hmoves
    · exact absurd rfl (hnot left)
  · exact ⟨_, exec_move_grows hhead (s.growing_left_iff.mpr h0) hroom, rfl, by simp [h0], fun j => rfl⟩
  · obtain ⟨u, hu, huhead, hgrew, hkept⟩ := exec_move_right_completes hhead hroom
    have hback := exec_move_left_of_succ huhead (exec_head_lt hhead hu)
    refine ⟨u.countMove.shifted .left, ?_, by simp [huhead], hgrew, hkept⟩
    rw [execAll_cons_next hu, execAll_cons_next hback, execAll]

/-- Settles O40: the writers of the tape, and DRAW and MOVE through the view that fixes the flag and the registry. -/
theorem onlyDrawAndMoveTouchTheTape : Obligations.OnlyDrawAndMoveTouchTheTape := by
  have hframe : ∀ {i : Instr} {s t : State}, ((∃ letter blank, i = .draw letter blank) ∨ ∃ left, i = .move left) →
      exec i s = .next t → t.eq = s.eq ∧ t.alpha = s.alpha := by
    intro i s t hi h
    obtain ⟨-, heq, -, halpha⟩ := exec_frame_of_draw_or_move h hi
    exact ⟨heq, halpha⟩
  refine ⟨fun i s t => exec_tape_of_not_draw_move, fun i s v a hi => ⟨?_, fun t => hframe hi⟩⟩
  rw [← mapNext_exec_draw_or_move hi s v a, mapNext_eq_self]
  intro t ht
  obtain ⟨rfl, rfl⟩ := hframe hi ht
  rfl

/-- Settles O42: what no instruction writes, what DRAW and MOVE do not write, and DRAW as one `tapeWrite`. -/
theorem frameOfDrawAndMove : Obligations.FrameOfDrawAndMove := by
  intro i s t h hi
  obtain ⟨hcfg, himem, hir, hsteps, hfault⟩ := exec_frame h
  obtain ⟨hpc, heq, hstatus, halpha⟩ := exec_frame_of_draw_or_move h hi
  refine ⟨fun a => by rw [himem], hcfg, hpc, hir, heq, hstatus, hsteps, halpha, hfault, ?_⟩
  rintro ⟨letter, blank, rfl⟩
  rw [exec_draw_next h]
  exact ⟨rfl, rfl, fun j hj => List.getElem?_set_ne hj.symm⟩

/-- Settles O34: DRAW is one `tapeWrite`, and the format at the default map. -/
theorem drawWritesTheCellUnderTheHead : Obligations.DrawWritesTheCellUnderTheHead := by
  refine ⟨fun letter blank s hhead => ?_, fun letter blank w => ?_⟩
  · obtain ⟨c, hc⟩ := State.tapeRead_of_lt hhead
    exact ⟨_, exec_draw hc letter blank, rfl, s.tapeWrite_length _, List.getElem?_set_self hhead,
      fun j hj => List.getElem?_set_ne hj.symm⟩
  · obtain ⟨-, -, -, -, hdraw, -⟩ := msbFirstFormats Config.default w defaultConfig_wellFormed rfl
    exact hdraw letter blank

end Sys2Proof.Machine
end

section
/-! The statement of 44_end.md, settled. -/

namespace Sys2Proof.Machine

/-- R190: an END's write of the status, in the terms of the statement. -/
theorem State.halt_endStatus (s : State) (halt : Bool) :
    s.halt (endStatus halt) = { s with status := if halt then .halted else .failed } := by
  rw [State.halt, endStatus_eq_ite]

/-- Settles O38: END is one `halt`, its step is that `halt` on the state after the fetch, and the format at the default map. -/
theorem endSetsTheStatus : Obligations.EndSetsTheStatus := by
  refine ⟨fun halt s => ?_, fun halt s w he hw hd => ?_, fun halt w => ?_⟩
  · rw [exec_endRun, State.halt_endStatus]
  · rw [step_endRun he hw hd, State.halt_endStatus]
  · obtain ⟨-, -, -, -, -, -, hend, -⟩ := msbFirstFormats Config.default w defaultConfig_wellFormed rfl
    exact hend halt

end Sys2Proof.Machine
end

section
/-! SUPPORT. A session over a list of events without a load, and the host's start of a run. -/

namespace Sys2Proof.Machine

/-- R8, R67: between loads, neither the parameters nor the image change. -/
theorem sessionAfter_frame {es : List SessionEvent} (hes : ∀ f, SessionEvent.host (.load f) ∉ es) (h : Session) :
    (sessionAfter h es).cfg = h.cfg ∧ (sessionAfter h es).image = h.image := by
  induction es generalizing h with
  | nil => exact ⟨rfl, rfl⟩
  | cons e es ih =>
    have hrest : ∀ f, SessionEvent.host (.load f) ∉ es := fun f hf => hes f (List.mem_cons_of_mem e hf)
    have hafter : ∀ {h' : Session}, h'.cfg = h.cfg ∧ h'.image = h.image →
        (sessionAfter h' es).cfg = h.cfg ∧ (sessionAfter h' es).image = h.image := by
      rintro h' ⟨hcfg, himage⟩
      rw [← hcfg, ← himage]
      exact ih hrest h'
    cases e with
    | host mv =>
      have hmv : ∀ f, mv ≠ .load f := fun f hf => hes f (hf ▸ List.mem_cons_self)
      exact hafter (hostMove_frame hmv h)
    | core => exact hafter (coreMove_frame h)

/-- R231, R235: with an image loaded and no run going on, a run asked for is started from reset. -/
theorem hostMove_run {h : Session} {m : Memory} (hrun : h.run = none) (himage : h.image = some m) (line : List Byte) :
    hostMove h (.run line) = ({ h with run := some (startRun h.cfg m (tapeOfLine line)) }, .started) := by
  simp only [hostMove, hrun, himage]

end Sys2Proof.Machine
end

section
/-! The statements of 60_exceptions.md, settled. -/

namespace Sys2Proof.Machine

/-- Settles O17: the events keep the parameters and the image (`sessionAfter_frame`), and a start reads nothing else of the
session but that no run is going on (`hostMove_run`). -/
theorem nextRunStartsFresh : Obligations.NextRunStartsFresh := by
  intro h m es line himage hes hrun
  obtain ⟨hcfg, himage'⟩ := sessionAfter_frame hes h
  rw [hostMove_run hrun (himage'.trans himage), hcfg]

/-- Settles O23: a step that leaves a mark is one `raise` (`eq_raise_of_step_fault`), and a marked state answers with its
mark. -/
theorem modelFaultCommitsNothingElse : Obligations.ModelFaultCommitsNothingElse := by
  refine ⟨fun s t he h hf => ?_, fun r => ?_, fun s t r hr => ?_⟩
  · obtain ⟨r, rfl⟩ := eq_raise_of_step_fault he h hf
    exact ⟨rfl, by simp [he.1], by simp [he.1]⟩
  · cases r with
    | unloadedFetch => exact .inl rfl
    | tapeExhausted => exact .inr rfl
  · rw [step_of_fault hr]
    exact nofun

/-- Settles O25: `step_cmp_undeclared`, whose `halt` writes the status and nothing else. -/
theorem invalidSymbolFailsTheRun : Obligations.InvalidSymbolFailsTheRun :=
  fun _ _ _ _ _ _ he hw hd hc hx => step_cmp_undeclared he hw hd hc hx

end Sys2Proof.Machine
end

section
/-! SUPPORT. What the host loads, starts and reads: the words of an image (R236, R238), the tape of a line (R239), the first
state of a run (R231) and the outcome of its last step (R240); and a CMP after another instruction (R243). -/

namespace Sys2Proof.Machine

/-! ### Loading -/

/-- R236: an even file of at most 8192 bytes loads. -/
theorem load_bytes {b : List Byte} (heven : b.length % 2 = 0) (hsize : b.length ≤ 8192) :
    load (.bytes b) = .ok (Memory.ofWords (wordsOfBytes b)) := by
  rw [load, if_neg (by omega), if_neg (by omega)]

/-- R55, R238: the word at `k` is the bytes at `2k` and `2k + 1`, the lower one first. -/
theorem getElem?_wordsOfBytes {b : List Byte} {k : Nat} {lo hi : Byte} (hlo : b[2 * k]? = some lo)
    (hhi : b[2 * k + 1]? = some hi) : (wordsOfBytes b)[k]? = some (hi ++ lo) := by
  induction b using wordsOfBytes.induct generalizing k with
  | case1 lo' hi' rest ih =>
    cases k with
    | zero =>
      obtain rfl : lo' = lo := Option.some.inj hlo
      obtain rfl : hi' = hi := Option.some.inj hhi
      rfl
    | succ k => exact ih hlo hhi
  | case2 b hshort =>
    match b with
    | [] => simp at hlo
    | [_] => simp at hhi
    | lo' :: hi' :: rest => exact absurd rfl (hshort lo' hi' rest)

theorem Memory.read_ofWords (ws : List Word) (a : Nat) : (Memory.ofWords ws).read a = ws[a]? := by
  rw [Memory.ofWords, Memory.read_ofWordsFrom, if_neg (Nat.not_lt_zero a), Nat.sub_zero]

/-- A load error is answered, and the session stays as it was, with or without an image (log entry 14). -/
theorem hostMove_load_error {h : Session} {f : ImageFile} {e : LoadError} (hrun : h.run = none)
    (he : load f = .error e) : hostMove h (.load f) = (h, .loadError e) := by
  simp only [hostMove, hrun, he]

/-! ### The tape of a line -/

theorem initialTape_terminated (c : List Byte) : initialTape c true = c.map .symbol ++ [.blank] := by
  simp [initialTape]

theorem initialTape_unterminated (c : List Byte) :
    initialTape c false = if c = [] then [.blank] else c.map .symbol := by
  simp [initialTape]

/-- A line that does not end in "\n" is content. -/
theorem tapeOfLine_unterminated {c : List Byte} (h : c.getLast? ≠ some 0x0A) :
    tapeOfLine c = if c = [] then [.blank] else c.map .symbol := by
  have hsplit : splitTerminator c = (c, false) := by
    induction c using List.reverseRecOn with
    | nil => rfl
    | append_singleton c b =>
      have hb : b ≠ 0x0A := by simpa using h
      simp only [splitTerminator, List.reverse_append, List.reverse_singleton, List.singleton_append, if_neg hb]
  rw [tapeOfLine, hsplit, initialTape_unterminated]

/-- A trailing "\n" that no "\r" precedes is the terminator. -/
theorem tapeOfLine_newline {c : List Byte} (h : c.getLast? ≠ some 0x0D) :
    tapeOfLine (c ++ [0x0A]) = c.map .symbol ++ [.blank] := by
  have hsplit : splitTerminator (c ++ [0x0A]) = (c, true) := by
    induction c using List.reverseRecOn with
    | nil => rfl
    | append_singleton c b =>
      have hb : b ≠ 0x0D := by simpa using h
      simp only [splitTerminator, List.reverse_append, List.reverse_singleton, List.singleton_append, if_true, if_neg hb]
      rw [List.reverse_cons, List.reverse_reverse]
  rw [tapeOfLine, hsplit, initialTape_terminated]

/-- A trailing "\r\n" is the terminator, whatever precedes it. -/
theorem tapeOfLine_crlf (c : List Byte) : tapeOfLine (c ++ [0x0D, 0x0A]) = c.map .symbol ++ [.blank] := by
  have hsplit : splitTerminator (c ++ [0x0D, 0x0A]) = (c, true) := by simp [splitTerminator]
  rw [tapeOfLine, hsplit, initialTape_terminated]

/-- A terminated line's last content byte, written as the cell before the `Blank`. -/
theorem tapeOfLine_content_concat {c e : List Byte} {b : Byte}
    (h : tapeOfLine (c ++ [b] ++ e) = (c ++ [b]).map .symbol ++ [.blank]) :
    tapeOfLine (c ++ b :: e) = c.map .symbol ++ [.symbol b, .blank] := by
  rwa [List.append_assoc, List.map_append, List.append_assoc] at h

/-! ### The first state of a run -/

theorem startRun_enabled (cfg : Config) (m : Memory) (tape : List Cell) : (startRun cfg m tape).enabled := ⟨rfl, rfl⟩

/-- A run of an image in its canonical form, over a tape with a cell, starts legal: the counters are 0, `ir` holds no value,
and the state is neither terminal nor marked. -/
theorem startRun_legal {cfg : Config} {m : Memory} {tape : List Cell} (hcfg : cfg.wellFormed) (hm : m.wf)
    (htape : 0 < tape.length) : (startRun cfg m tape).Legal where
  map_injective := hcfg
  memory_canonical := hm
  pc_twelve_bits := Nat.zero_lt_succ _
  head_on_tape := htape
  counters_fit _ _ := ⟨Nat.two_pow_pos _, Nat.two_pow_pos _⟩
  moves_are_steps _ := le_rfl
  ir_none_iff _ := iff_of_true rfl rfl
  halted_cause := nofun
  failed_cause := nofun
  fault_is_not_terminal h := absurd rfl h

/-- The reset state is a run's first state (log entry 5). -/
theorem reset_eq_startRun : State.reset = startRun Config.default [] (tapeOfLine []) := rfl

/-! ### The outcome -/

/-- R240, R241: a state without a mark has an outcome exactly when it is terminal. -/
theorem outcomeOf_isSome_iff {t : State} : (outcomeOf t).isSome = true ↔ t.fault = none ∧ t.terminal := by
  cases hf : t.fault with
  | some r => simp [outcomeOf, hf]
  | none => cases hs : t.status <;> simp [outcomeOf, State.terminal, hf, hs]

/-- R240: every item of an outcome is read off the state. -/
theorem outcomeOf_eq_some {t : State} {o : RunOutcome} (h : outcomeOf t = some o) :
    o = ⟨t.status, t.tape, t.head, t.ir, t.steps, t.moves, t⟩ := by
  unfold outcomeOf at h
  split at h <;> cases h <;> rfl

theorem coreMove_outcome {h : Session} {s t : State} (hrun : h.run = some s) (hstep : step s = .next t) :
    (coreMove h).2 = outcomeOf t := by
  simp only [coreMove, hrun, hstep]
  cases outcomeOf t <;> rfl

/-- R207: an enabled step that reaches a terminal status leaves no mark. -/
theorem step_fault_of_terminal {s t : State} (he : s.enabled) (h : step s = .next t) (ht : t.terminal) :
    t.fault = none := by
  by_contra hf
  obtain ⟨r, rfl⟩ := eq_raise_of_step_fault he h hf
  simp [State.terminal, he.1] at ht

/-! ### A CMP after another instruction -/

/-- R242: a CMP compares the cell that the instruction before it left under the head. `valid` is what that instruction made
of the cell's validity. -/
theorem execAll_then_cmp {i : Instr} {s u : State} {c : Cell} {valid : Prop} (hi : exec i s = .next u)
    (hc : u.tapeRead = some c) (heq : u.eq = s.eq) (hstatus : u.status = s.status) (hvalid : u.validCell c ↔ valid)
    (letter : Symbol) (blank oring : Bool) :
    ∃ t, execAll [i, .cmp letter blank oring] s = .next t ∧ s.comparedIn t valid c letter blank oring := by
  obtain ⟨t, ht, hcompared⟩ := exec_cmp_completes hc letter blank oring
  refine ⟨t, by rw [execAll_cons_next hi, execAll_cons_next ht, execAll], ?_⟩
  simpa only [State.comparedIn, heq, hstatus, hvalid] using hcompared

/-- DRAW and MOVE keep the flag, the status and the registry, so the CMP after one is by those before it. -/
theorem execAll_draw_or_move_then_cmp {i : Instr} {s u : State} {c : Cell} (hi : exec i s = .next u)
    (hform : (∃ letter blank, i = .draw letter blank) ∨ ∃ left, i = .move left) (hc : u.tapeRead = some c)
    (letter : Symbol) (blank oring : Bool) : ∃ t, execAll [i, .cmp letter blank oring] s = .next t ∧
      s.comparedIn t (s.validCell c) c letter blank oring := by
  obtain ⟨-, heq, hstatus, halpha⟩ := exec_frame_of_draw_or_move hi hform
  exact execAll_then_cmp hi hc heq hstatus (by rw [State.validCell, halpha, State.validCell]) letter blank oring

theorem State.tapeRead_tapeWrite {s : State} (hhead : s.head < s.tape.length) (c : Cell) :
    (s.tapeWrite c).tapeRead = some c :=
  List.getElem?_set_self hhead

/-- R175: after a growth the head is on the cell just grown. -/
theorem State.tapeRead_grown {s : State} {left : Bool} (hhead : s.head < s.tape.length) (hg : s.growing left) :
    (s.grown (moveDir left)).tapeRead = some s.cfg.growFill := by
  cases left with
  | true => simp [State.tapeRead, s.growing_left_iff.mp hg]
  | false =>
    have hlast : s.head + 1 = s.tape.length := by
      rw [State.growing_right_iff] at hg
      omega
    simp [State.tapeRead, hlast]

/-- R175: after a shift the head is on the neighbouring cell. -/
theorem State.tapeRead_shifted (s : State) (left : Bool) :
    (s.shifted (moveDir left)).tapeRead = s.tape[if left then s.head - 1 else s.head + 1]? := by
  cases left <;> rfl

/-- R131: a cell is valid after a declaration when it was, or holds the declared symbol. -/
theorem State.validCell_declare_iff (s : State) (x : Symbol) (c : Cell) :
    (s.declare x).validCell c ↔ ∀ y, c = .symbol y → y = x ∨ s.alpha.getLsbD y.toNat = true :=
  forall₂_congr fun y _ => s.declared_declare_iff x y

end Sys2Proof.Machine
end

section
/-! The statements of 70_reset_and_hazards.md, settled. -/

namespace Sys2Proof.Machine

/-- Settles O10: what loads by `load_ok` and `load_bytes`, and where the words lie by `Memory.read_ofWords`. -/
theorem imagesLoadWordByWord : Obligations.ImagesLoadWordByWord := by
  refine ⟨fun f => ⟨?_, ?_⟩, fun b m h => ?_, fun h f e hrun _ he => hostMove_load_error hrun he⟩
  · rintro ⟨m, h⟩
    obtain ⟨b, hf, hsize, heven, -⟩ := load_ok h
    exact ⟨b, hf, heven, hsize⟩
  · rintro ⟨b, rfl, heven, hsize⟩
    exact ⟨_, load_bytes heven hsize⟩
  · obtain ⟨_, ⟨⟩, -, -, rfl⟩ := load_ok h
    refine ⟨fun k lo hi hlo hhi => ?_, fun a ha => ?_⟩
    · rw [Memory.read_ofWords, getElem?_wordsOfBytes hlo hhi]
    · rw [Memory.read_ofWords, List.getElem?_eq_none (by rwa [length_wordsOfBytes])]

/-- Settles O13: the three endings of a line whose content ends in no byte of a terminator. -/
theorem initialTapeOfALine : Obligations.InitialTapeOfALine :=
  ⟨fun c hlf hcr => ⟨tapeOfLine_unterminated hlf, tapeOfLine_newline hcr, tapeOfLine_crlf c⟩,
    fun _ _ _ => ⟨rfl, rfl⟩⟩

/-- Settles O16: the core's move answers `outcomeOf` the next state, which has no mark where it is terminal; the image has a
word for every two bytes. -/
theorem outcomeIsReadAtTheTerminalState : Obligations.OutcomeIsReadAtTheTerminalState := by
  refine ⟨fun h s t hrun he hstep => ?_, fun b m h => ?_⟩
  · rw [coreMove_outcome hrun hstep]
    refine ⟨outcomeOf_isSome_iff.trans (and_iff_right_of_imp (step_fault_of_terminal he hstep)), fun o ho => ?_⟩
    obtain rfl := outcomeOf_eq_some ho
    exact ⟨rfl, rfl, rfl, rfl, rfl, rfl, rfl⟩
  · obtain ⟨_, ⟨⟩, -, -, rfl⟩ := load_ok h
    rw [programSizeBits, Memory.ofWords, Memory.length_ofWordsFrom, length_wordsOfBytes]

/-- Settles O43: a BRAC after a CMP by the flag that `exec_cmp_valid` writes; a CMP after each other instruction by the cell
that the instruction leaves under the head. -/
theorem noHazardBetweenInstructions : Obligations.NoHazardBetweenInstructions := by
  refine ⟨fun s c letter blank oring e addr hc hv => ?_, fun s x letter drawBlank blank oring hhead => ?_,
    fun s left letter blank oring hhead hg hroom => ?_, fun s left c letter blank oring hhead hg hc => ?_,
    fun s c x letter blank oring hc => ?_⟩
  · refine ⟨_, by rw [execAll_cons_next (exec_cmp_valid hc hv letter blank oring),
      execAll_cons_next (exec_brac addr e _), execAll], ?_⟩
    rw [State.setEq_eq, apply_ite State.pc, State.jump_pc, addrToPc_eq_ofNat, State.setEq_pc]
  · obtain ⟨_, hread⟩ := State.tapeRead_of_lt hhead
    exact execAll_draw_or_move_then_cmp (exec_draw hread x drawBlank) (.inl ⟨x, drawBlank, rfl⟩)
      (State.tapeRead_tapeWrite hhead _) letter blank oring
  · exact execAll_draw_or_move_then_cmp (exec_move_grows hhead hg hroom) (.inr ⟨left, rfl⟩)
      (State.tapeRead_grown (s := s.countMove) hhead hg) letter blank oring
  · exact execAll_draw_or_move_then_cmp (exec_move_shifts hhead hg) (.inr ⟨left, rfl⟩)
      ((s.countMove.tapeRead_shifted left).trans hc) letter blank oring
  · exact execAll_then_cmp (exec_alpha x s) hc rfl rfl (s.validCell_declare_iff x c) letter blank oring

/-- Settles O48: a loaded image is in its canonical form, and a line's tape has a cell. -/
theorem runStartIsLegal : Obligations.RunStartIsLegal := fun _ _ _ line hcfg hload =>
  startRun_legal hcfg (Memory.wf_load hload) (tapeOfLine_length_pos line)

/-- Settles O9: the host's start is `startRun` (`hostMove_run`). -/
theorem runStartsFromTheResetValues : Obligations.RunStartsFromTheResetValues := by
  refine ⟨fun h m line hrun himage => ?_, rfl, rfl⟩
  have hseed : h.cfg.alphabetSeed = .empty → seedAlphabet h.cfg m = 0 := fun hempty => by rw [seedAlphabet, hempty]
  exact ⟨_, by rw [hostMove_run hrun himage], rfl, rfl, rfl, rfl, rfl, rfl, rfl, rfl, hseed, rfl, rfl, rfl⟩

/-- Settles O11: the failed load leaves the session itself, whose image the next run starts from. -/
theorem failedLoadKeepsTheEarlierImage : Obligations.FailedLoadKeepsTheEarlierImage := by
  intro h m f e line hrun himage he
  have hload := hostMove_load_error hrun he
  exact ⟨hload, by rw [hload, hostMove_run hrun himage]⟩

/-- Settles O12: no word of the empty image is loaded at the first fetch. -/
theorem emptyImageLoadsAndItsRunsFault : Obligations.EmptyImageLoadsAndItsRunsFault :=
  ⟨[], rfl, rfl, fun cfg tape hfault => step_raise_of_unloaded (startRun_enabled cfg [] tape) (Memory.read_nil _) hfault⟩

/-- Settles O14: each ending is one of `InitialTapeOfALine`'s, over content that ends in a byte of a terminator. -/
theorem trailingTerminatorIsTakenOnce : Obligations.TrailingTerminatorIsTakenOnce := by
  refine ⟨fun c => tapeOfLine_content_concat (tapeOfLine_newline (by simp)),
    fun c => tapeOfLine_content_concat (tapeOfLine_crlf _),
    fun c => tapeOfLine_content_concat (tapeOfLine_crlf _), fun c => ?_⟩
  rw [tapeOfLine_unterminated (by simp), if_neg (by simp), List.map_append, List.map_singleton]

/-- Settles O47: the reset state is the first state of a run of no words over an empty line. -/
theorem resetIsLegal : Obligations.ResetIsLegal := by
  rw [Obligations.ResetIsLegal, reset_eq_startRun]
  exact startRun_legal defaultConfig_wellFormed Memory.wf_reset (tapeOfLine_length_pos [])

end Sys2Proof.Machine
end
